-- ==== Sys2Proof/Word.lean ====
section
/-! DEFINITION. The word types: descriptor halfwords, the four legal widths, and a bit pattern with its width. -/

namespace Sys2Proof

/-- One 16-bit halfword of a descriptor (30_encoding.md R60). -/
abbrev Halfword := BitVec 16

/-- The four and only widths of a FixedWidthValue (00_scope.md R8, 30_encoding.md R62). -/
inductive Width where
  | w8
  | w16
  | w32
  | w64
deriving DecidableEq, Repr

/-- The number of bits of a width. -/
def Width.bits : Width → Nat
  | .w8 => 8
  | .w16 => 16
  | .w32 => 32
  | .w64 => 64

/-- A bit pattern together with its width, as a wire carries it: bit 0 is the least significant
(00_scope.md R10). Whether it is signed is the caller's reading, not part of it (R13). -/
structure Value where
  width : Nat
  bits : BitVec width
deriving DecidableEq, Repr

end Sys2Proof
end

