-- ==== Sys2Proof/Syntax.lean ====
section
/-! DEFINITION. The syntax: the eleven operations with their static parameters, the lines of a netlist with the
wiring of their ports, and the build-time data of STATICFOR. -/

namespace Sys2Proof

/-- The eleven operations, one constructor per row of spec/opcode_table.json (30_encoding.md R74). The arguments are
the static parameters of an instance (00_scope.md R14); run-time operands are on the ports. -/
inductive Instr where
  /-- ONES.W #k, the mask synthesizer (40_mask_extract.md R100). -/
  | ones (w : Width) (k : Nat)
  /-- GETBIT.W a, b (R101). -/
  | getbit (w : Width)
  /-- GETBITS.W a, b, c (R102). -/
  | getbits (w : Width)
  /-- ISBITSET.W a, b (R103). -/
  | isbitset (w : Width)
  /-- SEXT16 a, b (41_sign_extend.md R122). -/
  | sext16
  /-- SEXT32 a, b (R123). -/
  | sext32
  /-- ROTR.W a, b (42_rotate.md R133). -/
  | rotr (w : Width)
  /-- ROTL.W a, b (R134). -/
  | rotl (w : Width)
  /-- INCBCD a (43_bcd.md R140). -/
  | incbcd
  /-- STATICFOR #first, #last, cb<k> with BEGIN = first and END = last, any integers (44_static_for.md R150, R156). -/
  | staticfor (k : BitVec 8) (first last : Int)
  /-- BITCAST with S_TO = target and S_FROM = source (45_bitcast.md R160). -/
  | bitcast (target source : Width)
deriving DecidableEq, Repr

/-- The operation acts at build time only (44_static_for.md R150: STATICFOR has no run-time port). -/
def Instr.isStatic : Instr → Bool
  | .staticfor _ _ _ => true
  | .ones _ _ | .getbit _ | .getbits _ | .isbitset _ | .sext16 | .sext32 | .rotr _ | .rotl _ | .incbcd
  | .bitcast _ _ => false

/-- What drives an operand port: "a port is wired by the caller to another instance's `y`, to a caller signal, or to
a constant" (30_encoding.md R70). -/
inductive Source where
  /-- A caller signal: the port sees what the caller presents on it. -/
  | signal
  /-- The wire numbered `n`: a named input or another instance's `y` (R72). -/
  | wire (n : Nat)
  /-- A port tied to a constant (R70, R72). -/
  | const (v : Value)
deriving DecidableEq, Repr

/-- One line of a netlist program: a descriptor, the wiring of ports a, b, c, and the wire its `y` drives, if the
caller names one (30_encoding.md R60, R70, R72). The sources of ports the operation does not have are not read. -/
structure Line where
  words : List Halfword
  a : Source
  b : Source
  c : Source
  target : Option Nat
deriving DecidableEq, Repr

/-- What a listed callback computes with: any finite build-time datum, as a tree of integers and bit patterns. A list
`[x, y]` is `pair x (pair y nil)` (log 6). -/
inductive Data where
  | nil
  | int (i : Int)
  | word (v : Value)
  | pair (x y : Data)
deriving DecidableEq, Repr, Inhabited

/-- A value of the elaboration state type St, which the spec leaves open (00_scope.md R9, 44_static_for.md R152, D14).
DESIGN CHOICE (log 6): a listed callback keeps a datum. Of a callback that is not listed nothing is known, its St
included, so its value is held as what it was computed from: the start state that callback `k` makes of what was left
before, and one invocation of callback `k` at index `i` after another. A value of any St whatever is held so, and
`Kept.inType` reads it there. -/
inductive Kept where
  | datum (d : Data)
  /-- The start state st0 of a STATICFOR with callback `k`, from what the STATICFOR before it left (log 25). -/
  | started (k : BitVec 8) (before : Kept)
  /-- `CBTAB[k](i, st)`. -/
  | invoked (k : BitVec 8) (i : Int) (st : Kept)
deriving DecidableEq, Repr, Inhabited

/-- The elaboration state that STATICFOR threads through its callback (10_state.md R31, 44_static_for.md R152): what
the callback keeps, and the lines it has created, since "a callback may create hardware". -/
structure ElabState where
  kept : Kept
  created : List Line
deriving DecidableEq, Repr, Inhabited

/-- A term a callback computes from its index constant and what it keeps (R152). Terms are plain data, so that a
callback can stand in State; `extern n` applies the `n`-th open function, so any function of the index can stand where
a term stands. -/
inductive CbTerm where
  /-- The index constant `i`. -/
  | index
  /-- What the callback keeps. -/
  | state
  | const (d : Data)
  | add (x y : CbTerm)
  | sub (x y : CbTerm)
  | mul (x y : CbTerm)
  /-- 1 where `x <= y`, else 0. -/
  | le (x y : CbTerm)
  /-- 1 where `x = y`, else 0. -/
  | eq (x y : CbTerm)
  /-- A decision on the index, taken at elaboration (R153): `y` where the test is 0, else `x`. -/
  | choose (test x y : CbTerm)
  | pair (x y : CbTerm)
  | first (x : CbTerm)
  | second (x : CbTerm)
  /-- `x ++ y` of lists. -/
  | append (x y : CbTerm)
  /-- The output of `ONES.W #k`; the term creates that instance (`CbTerm.lines`). -/
  | ones (w : Width) (k : CbTerm)
  | extern (n : Nat) (x : CbTerm)
deriving DecidableEq, Repr

/-- What drives a port of a created line, computed at elaboration. -/
inductive SourceTerm where
  | signal
  | wire (n : CbTerm)
  | const (v : CbTerm)
deriving DecidableEq, Repr

/-- A line that a callback creates, its static parameters and wiring computed from the index (R152: "whose static
parameters are computed from `i`"). It is created where `guard` is not 0. `first` and `last` are read of a created
STATICFOR only. -/
structure LineTerm where
  guard : CbTerm
  op : BitVec 4
  ws : BitVec 2
  k : CbTerm
  first : CbTerm
  last : CbTerm
  a : SourceTerm
  b : SourceTerm
  c : SourceTerm
  target : Option CbTerm
deriving DecidableEq, Repr

/-- A callback of CBTAB as plain data, with the start state st0 of the STATICFORs that use it (R150, R152).
DESIGN CHOICE (log 25): the spec writes `st <- st0` and leaves st0 open, so it is given here: `some d` starts every
such STATICFOR from `d`, and `none` carries on from what the STATICFOR before it left. -/
structure Callback where
  start : Option Data
  /-- What the callback keeps after an invocation. -/
  next : CbTerm
  /-- The lines an invocation creates beside those its terms create. -/
  creates : List LineTerm
  /-- The result is built into the hardware as a table (10_state.md R31, 44_static_for.md R154). -/
  table : Bool
deriving DecidableEq, Repr

/-- The strategy of BITCAST, one choice for the whole build (45_bitcast.md R162). -/
inductive BitcastStrategy where
  | native
  | bytecopy
deriving DecidableEq, Repr

end Sys2Proof
end

