-- ==== Sys2Proof/WellFormed.lean ====
section
/-! DEFINITION. Well-formedness of an instruction: the static preconditions of 60_exceptions.md R172, and that a
descriptor can spell its bounds. The checks on descriptor bits are in Decode (30_encoding.md R67). -/

namespace Sys2Proof

/-- The build-time contract violations (60_exceptions.md R172). -/
inductive BuildViolation where
  /-- BV1: oversized mask count. -/
  | bv1
  /-- BV2: reinterpretation size mismatch. -/
  | bv2
  /-- BV3: reversed range. -/
  | bv3
  /-- BV4: reserved descriptor. -/
  | bv4
deriving DecidableEq, Repr

/-- The static precondition an operation violates, if any: ONES needs k <= W, STATICFOR BEGIN <= END, BITCAST equal
sizes; the others have none (70_reset_and_hazards.md R193). -/
def Instr.violation : Instr → Option BuildViolation
  | .ones w k => if k ≤ w.bits then none else some .bv1
  | .staticfor _ first last => if first ≤ last then none else some .bv3
  | .bitcast target source => if target = source then none else some .bv2
  | .getbit _ | .getbits _ | .isbitset _ | .sext16 | .sext32 | .rotr _ | .rotl _ | .incbcd => none

/-- The range of a bound that an extension halfword can spell (30_encoding.md R65). -/
def boundFits (x : Int) : Bool := -32768 ≤ x && x ≤ 32767

/-- A descriptor can spell the instruction's static parameters (30_encoding.md R64, R65). -/
def Instr.spellable : Instr → Bool
  | .staticfor _ first last => boundFits first && boundFits last
  | .ones _ k => k < 256
  | .getbit _ | .getbits _ | .isbitset _ | .sext16 | .sext32 | .rotr _ | .rotl _ | .incbcd | .bitcast _ _ => true

/-- A well-formed instruction: it violates no static precondition and has a descriptor. -/
def Instr.wf (i : Instr) : Bool := i.violation.isNone && i.spellable

end Sys2Proof
end

