-- ==== Sys2Proof/Decode.lean ====
section
/-! DEFINITION. Decoding of descriptors, total on any halfwords and refusing by the names of 60_exceptions.md R172 in
the order of 30_encoding.md R67, and the encoder, written from the same rules R61 to R66. -/

namespace Sys2Proof

/-! ## The fields of a descriptor halfword: `oooowwzzkkkkkkkk` (R61) -/

/-- Bits 15 to 12: the operation. -/
def opField (d : Halfword) : BitVec 4 := d.extractLsb' 12 4

/-- Bits 11 to 10: the width select. -/
def wsField (d : Halfword) : BitVec 2 := d.extractLsb' 10 2

/-- Bits 9 to 8: reserved, must be 00. -/
def zField (d : Halfword) : BitVec 2 := d.extractLsb' 8 2

/-- Bits 7 to 0: the static immediate. -/
def kField (d : Halfword) : BitVec 8 := d.extractLsb' 0 8

/-- `W = 8 << ws` (R62); BITCAST's size select of the source type is coded alike (R64). -/
def Width.ofSelect (ws : BitVec 2) : Width :=
  match ws.toNat with
  | 0 => .w8
  | 1 => .w16
  | 2 => .w32
  | _ => .w64

/-- The width select that names a width (R62). -/
def Width.select : Width → BitVec 2
  | .w8 => 0
  | .w16 => 1
  | .w32 => 2
  | .w64 => 3

/-! ## Decoding (R67, R68, R69) -/

/-- The operations whose `k` must be zero (R64). -/
def decodePlain (k : BitVec 8) (rest : List Halfword) (i : Instr) :
    Except BuildViolation (Instr × List Halfword) :=
  if k = 0 then .ok (i, rest) else .error .bv4

/-- ONES: `k` above `W` is BV1 (R67 WF4). -/
def decodeOnes (w : Width) (k : BitVec 8) (rest : List Halfword) :
    Except BuildViolation (Instr × List Halfword) :=
  if k.toNat ≤ w.bits then .ok (.ones w k.toNat, rest) else .error .bv1

/-- SEXT: only widths 16 and 32 exist (R66, R67 WF3), and `k` must be zero. -/
def decodeSext (w : Width) (k : BitVec 8) (rest : List Halfword) :
    Except BuildViolation (Instr × List Halfword) :=
  match w with
  | .w16 => decodePlain k rest .sext16
  | .w32 => decodePlain k rest .sext32
  | .w8 | .w64 => .error .bv4

/-- INCBCD: width 8 only (R66, R67 WF3), and `k` must be zero. -/
def decodeIncbcd (w : Width) (k : BitVec 8) (rest : List Halfword) :
    Except BuildViolation (Instr × List Halfword) :=
  match w with
  | .w8 => decodePlain k rest .incbcd
  | .w16 | .w32 | .w64 => .error .bv4

/-- STATICFOR: `ws` must be 00 (WF3), both extension halfwords present, read as two's-complement (R65), and
BEGIN <= END (WF5). -/
def decodeStaticfor (w : Width) (k : BitVec 8) (rest : List Halfword) :
    Except BuildViolation (Instr × List Halfword) :=
  match w with
  | .w8 =>
    match rest with
    | e1 :: e2 :: rest' =>
      if e1.toInt ≤ e2.toInt then .ok (.staticfor k e1.toInt e2.toInt, rest') else .error .bv3
    | _ => .error .bv4
  | .w16 | .w32 | .w64 => .error .bv4

/-- BITCAST: `k[7:2]` must be zero, and `k[1:0]` must equal `ws` (R64, R67 WF4). -/
def decodeBitcast (ws : BitVec 2) (k : BitVec 8) (rest : List Halfword) :
    Except BuildViolation (Instr × List Halfword) :=
  if k.extractLsb' 2 6 ≠ 0 then .error .bv4
  else if k.extractLsb' 0 2 ≠ ws then .error .bv2
  else .ok (.bitcast (Width.ofSelect ws) (Width.ofSelect (k.extractLsb' 0 2)), rest)

/-- The instruction at the head of a list of halfwords, with the halfwords after it, or the violation that the first
failing check of R67 names. No halfword at all is BV4 (log 13). -/
def decode : List Halfword → Except BuildViolation (Instr × List Halfword)
  | [] => .error .bv4
  | d :: rest =>
    if zField d ≠ 0 then .error .bv4
    else
      match (opField d).toNat with
      | 0 => decodeOnes (Width.ofSelect (wsField d)) (kField d) rest
      | 1 => decodePlain (kField d) rest (.getbit (Width.ofSelect (wsField d)))
      | 2 => decodePlain (kField d) rest (.getbits (Width.ofSelect (wsField d)))
      | 3 => decodePlain (kField d) rest (.isbitset (Width.ofSelect (wsField d)))
      | 4 => decodeSext (Width.ofSelect (wsField d)) (kField d) rest
      | 5 => decodePlain (kField d) rest (.rotr (Width.ofSelect (wsField d)))
      | 6 => decodePlain (kField d) rest (.rotl (Width.ofSelect (wsField d)))
      | 7 => decodeIncbcd (Width.ofSelect (wsField d)) (kField d) rest
      | 8 => decodeStaticfor (Width.ofSelect (wsField d)) (kField d) rest
      | 9 => decodeBitcast (wsField d) (kField d) rest
      | _ => .error .bv4

/-- How many halfwords the descriptor that begins with `d` has, told by `op` alone (R69). -/
def descriptorLength (d : Halfword) : Nat := if opField d = 8 then 3 else 1

/-- The descriptor of one line: exactly one instruction and nothing after it (R60; log 13). -/
def decodeLine (words : List Halfword) : Except BuildViolation Instr :=
  match decode words with
  | .error v => .error v
  | .ok (i, []) => .ok i
  | .ok (_, _ :: _) => .error .bv4

/-! ## Encoding (R61 to R66) -/

/-- A descriptor halfword from its fields, with the reserved bits 00 (R61). -/
def descriptor (op : BitVec 4) (ws : BitVec 2) (k : BitVec 8) : Halfword := op ++ (ws ++ (0#2 ++ k))

/-- The halfwords of an instruction. -/
def encode : Instr → List Halfword
  | .ones w k => [descriptor 0 w.select (BitVec.ofNat 8 k)]
  | .getbit w => [descriptor 1 w.select 0]
  | .getbits w => [descriptor 2 w.select 0]
  | .isbitset w => [descriptor 3 w.select 0]
  | .sext16 => [descriptor 4 1 0]
  | .sext32 => [descriptor 4 2 0]
  | .rotr w => [descriptor 5 w.select 0]
  | .rotl w => [descriptor 6 w.select 0]
  | .incbcd => [descriptor 7 0 0]
  | .staticfor k first last => [descriptor 8 0 k, BitVec.ofInt 16 first, BitVec.ofInt 16 last]
  | .bitcast target source => [descriptor 9 target.select (source.select.setWidth 8)]

/-! ## Halfwords packed in one number, as spec/opcode_table.json numbers their bits (log 14) -/

/-- The halfwords of the one descriptor whose bits are `w`: bit 0 is the least significant bit of the first halfword,
and bits from `nbits` up are zero. -/
def tableHalfwords (nbits w : Nat) : List Halfword :=
  let u := w % 2 ^ nbits
  [BitVec.ofNat 16 u, BitVec.ofNat 16 (u >>> 16), BitVec.ofNat 16 (u >>> 32)].take
    (descriptorLength (BitVec.ofNat 16 u))

/-- The instruction the decoder reads from the bits `w`. -/
def decodeTableWord (nbits w : Nat) : Option Instr :=
  (decodeLine (tableHalfwords nbits w)).toOption

/-! ## The opcode table (R74) -/

/-- One row of the opcode table over the first halfword. -/
structure TableRow where
  mnemonic : String
  mask : Halfword
  pattern : Halfword
deriving DecidableEq, Repr

/-- The eleven rows of R74 and spec/opcode_table.json. -/
def opcodeTable : List TableRow :=
  [⟨"ONES", 0xF300, 0x0000⟩, ⟨"GETBIT", 0xF3FF, 0x1000⟩, ⟨"GETBITS", 0xF3FF, 0x2000⟩,
   ⟨"ISBITSET", 0xF3FF, 0x3000⟩, ⟨"SEXT16", 0xFFFF, 0x4400⟩, ⟨"SEXT32", 0xFFFF, 0x4800⟩,
   ⟨"ROTR", 0xF3FF, 0x5000⟩, ⟨"ROTL", 0xF3FF, 0x6000⟩, ⟨"INCBCD", 0xFFFF, 0x7000⟩,
   ⟨"STATICFOR", 0xFF00, 0x8000⟩, ⟨"BITCAST", 0xF3FC, 0x9000⟩]

/-- A halfword matches a row. -/
def TableRow.hits (r : TableRow) (d : Halfword) : Bool := d &&& r.mask = r.pattern

/-- The mnemonic of an instruction (00_scope.md R2). -/
def Instr.mnemonic : Instr → String
  | .ones _ _ => "ONES"
  | .getbit _ => "GETBIT"
  | .getbits _ => "GETBITS"
  | .isbitset _ => "ISBITSET"
  | .sext16 => "SEXT16"
  | .sext32 => "SEXT32"
  | .rotr _ => "ROTR"
  | .rotl _ => "ROTL"
  | .incbcd => "INCBCD"
  | .staticfor _ _ _ => "STATICFOR"
  | .bitcast _ _ => "BITCAST"

end Sys2Proof
end

