-- ==== Sys2Proof/Config.lean ====
section
/-! DEFINITION. The open parameters of the model: total functions of the operands without a body, of which nothing
beyond their types is assumed (00_scope.md R9, 60_exceptions.md R173, 44_static_for.md R152). -/

namespace Sys2Proof

/-- `U_GETBIT(W, a, b)`: the result of GETBIT and, tested against zero, of ISBITSET for an out-of-range offset
(60_exceptions.md R173 PV1; log 4). -/
opaque Config.uGetbit (W : Nat) (a : BitVec W) (b : BitVec 32) : BitVec W

/-- `U_GETBITS(W, a, b, c)`: the result of GETBITS for a Field that does not fit (R173 PV2; log 4). -/
opaque Config.uGetbits (W : Nat) (a : BitVec W) (b c : BitVec 32) : BitVec W

/-- `U_SEXT(O, a, b)`: the result of SEXT16 and SEXT32 for an out-of-range starting width (R173 PV3; log 4). -/
opaque Config.uSext (O : Nat) (a : BitVec O) (b : BitVec 32) : BitVec O

/-- `U_BCD(a)`: the result of INCBCD outside BCD_VALID and for 0x99 (R173 PV4, 43_bcd.md R142; log 4, 5). -/
opaque Config.uBcd (a : BitVec 8) : BitVec 8

/-- The lines that a callback of CBTAB that is not listed creates at index `i`, where it keeps `st` (44_static_for.md
R152; log 6). -/
opaque Config.callbackCreates (k : BitVec 8) (i : Int) (st : Kept) : List Line

/-- What a listed callback reads of a state that a callback that is not listed left (log 6, 25). -/
opaque Config.seen (left : Kept) : Data

/-- Whether a callback that is not listed builds its result into the hardware (10_state.md R31; log 27). -/
opaque Config.callbackTable (k : BitVec 8) : Bool

/-- The open functions a callback term can apply, by number (44_static_for.md R152, R154; log 6). -/
opaque Config.extern (n : Nat) (x : Data) : Data

/-- What the callback term `ONES.W #k` is worth for a count outside 0 to `W`, where R100 builds no ONES: the instance
the term creates refuses the build (DESIGN CHOICE, log 29). -/
opaque Config.onesRefused (w : Width) (k : Int) : BitVec w.bits

/-- What a port of `W` bits sees of a wire or constant of another width, of which the spec says nothing
(DESIGN CHOICE, log 9). -/
opaque Config.mismatchedPort (W : Nat) (v : Value) : BitVec W

end Sys2Proof
end

