-- ==== Sys2Proof/Machine/State.lean ====
section
/-! DEFINITION. The state as plain data, the reasons a step can stop, and the state after reset. -/

namespace Sys2Proof.Machine

/-- The state of the model. BITU itself holds none (10_state.md R20: "A model's machine state for BITU is the empty
record"); what stands here is the environment of its instances: the design, its inputs, the caller's signals and
calls, the last result, and the build-time data (log 1). No field of this record is a register, flag or memory of BITU
(R21 to R24, R28 to R30). The wires of a built design are no field: they are a function of the design and its inputs
(`wiresOf`, 70_reset_and_hazards.md R190). -/
structure State where
  /-- The lines of the design. Unrolling replaces its STATICFOR lines; nothing else changes it (30_encoding.md R72). -/
  netlist : List Line
  /-- The named inputs, by wire number, numbers strictly rising (R72). -/
  inputs : List (Nat × Value)
  /-- The caller's signal on the value port; an instance of width W sees its low W bits (10_state.md R25, R26; log 2).
  While an instance is evaluated the ports hold the operands presented to it. -/
  a : BitVec 64
  /-- The caller's signal on the first small operand port, AW = 32 bits (R25). -/
  b : BitVec 32
  /-- The caller's signal on the second small operand port, AW = 32 bits (R25). -/
  c : BitVec 32
  /-- The evaluations the caller asks for, by line number, the next one first; with none listed the caller goes
  through the whole listing again (log 17). -/
  calls : List Nat
  /-- The output port of the instance evaluated last, with its width (R25, R27). -/
  y : Value
  /-- What the last STATICFOR left in the elaboration state, while the hardware is being built; `none` once it runs
  (R31; log 27). -/
  elaboration : Option Kept
  /-- The tables built into the hardware, in the order they were built (R31, 44_static_for.md R154). -/
  tables : List Kept
  /-- The lines created by the STATICFOR under way and not yet in the netlist. -/
  created : List Line
  /-- The callbacks of CBTAB that are listed, by identifier (44_static_for.md R152; log 6). -/
  cbtab : List (BitVec 8 × Callback)
  /-- The strategy of BITCAST (45_bitcast.md R162). -/
  strategy : BitcastStrategy
deriving DecidableEq, Repr

/-- The faults of a step: none. "A model's step for a run-time operation has one outcome, a value; it has no fault
outcome" (60_exceptions.md R171). The type has no constructor, so no one raises a fault. -/
inductive Fault
deriving DecidableEq, Repr

/-- The refusals: the build is rejected and nothing runs. -/
inductive Refusal where
  /-- An instruction without a meaning yet; raised by exec's arm only. Safe. -/
  | notModelled (mnemonic : String)
  /-- A build-time contract violation BV1 to BV4 (60_exceptions.md R172); raised by ONES, STATICFOR, BITCAST outside
  their static preconditions and by the build check of a step. Safe: the spec says the system must not build. -/
  | build (violation : BuildViolation)
  /-- A line uses wire `n`, which no earlier line drives and which is no named input (30_encoding.md R72); raised by
  the build check of a step. Safe (log 10). -/
  | undrivenWire (n : Nat)
  /-- Two lines drive wire `n`, or a line drives a named input (R72); raised by the build check of a step. Safe
  (log 10). -/
  | multiplyDrivenWire (n : Nat)
deriving DecidableEq, Repr

/-- The state after reset. The spec has no reset and no reset value (10_state.md R32, 70_reset_and_hazards.md R190):
nothing is loaded, and every field has the value log 3 names (DESIGN CHOICE). -/
def State.reset : State where
  netlist := []
  inputs := []
  a := 0
  b := 0
  c := 0
  calls := []
  y := ⟨0, 0⟩
  elaboration := some (.datum .nil)
  tables := []
  created := []
  cbtab := []
  strategy := .native

end Sys2Proof.Machine
end

