-- ==== Sys2Proof/Machine/Ops.lean ====
section
/-! DEFINITION. The named operations shared by the meanings: the arithmetic of 00_scope.md R11 and R12, the result
port, wires, and the unrolled loop. There is no exception entry and no return from one (60_exceptions.md R177, R178). -/

namespace Sys2Proof.Machine

/-! ## Pure functions on bit patterns

Each takes its width as a number; where the spec leaves a result open, the open function of Config is taken. -/

/-- `popcount(v)`, the number of one bits (00_scope.md R12). -/
def popcount {W : Nat} (v : BitVec W) : Nat := ((List.range W).filter fun i => v.getLsbD i).length

/-- `trunc_W((1 << k) - 1)`: the low `k` bits set (40_mask_extract.md R100). -/
def mask (W k : Nat) : BitVec W := BitVec.ofNat W ((1 <<< k) - 1)

/-- GETBIT: bit `b` of `a`, zero-extended to `W` bits (40_mask_extract.md R101). -/
def getBit (W : Nat) (a : BitVec W) (b : BitVec 32) : BitVec W :=
  if b.toNat < W then BitVec.ofNat W ((a.toNat >>> b.toNat) % 2) else Config.uGetbit W a b

/-- GETBITS: `(val(a) >> b) mod 2^c` when the Field fits (40_mask_extract.md R102). The ports are read unsigned; a
negative reading violates the same precondition (10_state.md R25). -/
def getBits (W : Nat) (a : BitVec W) (b c : BitVec 32) : BitVec W :=
  if b.toNat + c.toNat ≤ W then BitVec.ofNat W ((a.toNat >>> b.toNat) % 2 ^ c.toNat) else Config.uGetbits W a b c

/-- ISBITSET: GETBIT tested against zero (40_mask_extract.md R103). -/
def isBitSet (W : Nat) (a : BitVec W) (b : BitVec 32) : BitVec 1 :=
  if getBit W a b = 0 then 0 else 1

/-- `sext_O(a, s)` of 00_scope.md R12 for 1 <= s <= O (41_sign_extend.md R120). -/
def sext (O : Nat) (a : BitVec O) (s : Nat) : BitVec O :=
  let u := a.toNat % 2 ^ s
  if u < 2 ^ (s - 1) then BitVec.ofNat O u else BitVec.ofNat O (u + 2 ^ O - 2 ^ s)

/-- SEXT16 and SEXT32 at output width `O` (41_sign_extend.md R122 to R124). -/
def signExtend (O : Nat) (a : BitVec O) (b : BitVec 32) : BitVec O :=
  if 1 ≤ b.toNat ∧ b.toNat ≤ O then sext O a b.toNat else Config.uSext O a b

/-- The reduced rotate amount `b mod W`, the same under either reading of the port (42_rotate.md R131). -/
def rotateAmount (W : Nat) (b : BitVec 32) : Nat := b.toNat % W

/-- `(val(a) >> n) | trunc_W(val(a) << (W - n))` (42_rotate.md R133). -/
def rotateRight (W : Nat) (a : BitVec W) (n : Nat) : BitVec W :=
  BitVec.ofNat W ((a.toNat >>> n) ||| (a.toNat <<< (W - n)))

/-- `trunc_W(val(a) << n) | (val(a) >> (W - n))` (42_rotate.md R134). -/
def rotateLeft (W : Nat) (a : BitVec W) (n : Nat) : BitVec W :=
  BitVec.ofNat W ((a.toNat <<< n) ||| (a.toNat >>> (W - n)))

/-- `a` is in BCD_VALID: both nibbles are decimal digits (43_bcd.md R141). -/
def bcdValid (a : BitVec 8) : Bool := (a.extractLsb' 4 4).toNat ≤ 9 && (a.extractLsb' 0 4).toNat ≤ 9

/-- The addend of the BCD increment: 7 when the low nibble is 9, else 1 (43_bcd.md R140). -/
def bcdAddend (a : BitVec 8) : BitVec 8 := if a.extractLsb' 0 4 = 9 then 7 else 1

/-- INCBCD (43_bcd.md R140, R142). -/
def incBcd (a : BitVec 8) : BitVec 8 :=
  if bcdValid a && a ≠ 0x99 then a + bcdAddend a else Config.uBcd a

/-- `DP_BCD`, the literal datapath, a candidate for `U_BCD` that no meaning uses (43_bcd.md R143). -/
def dpBcd (a : BitVec 8) : BitVec 8 := a + bcdAddend a

/-- Bytes 0 to `n - 1` of `a` copied each to its own place (20_memory.md R45, 45_bitcast.md R162). -/
def byteCopy {S : Nat} (a : BitVec S) : Nat → BitVec S
  | 0 => 0
  | n + 1 => byteCopy a n ||| ((a.extractLsb' (8 * n) 8).setWidth S <<< (8 * n))

/-- BITCAST between equal sizes, by either strategy (45_bitcast.md R160, R162). -/
def bitCast {S : Nat} (strategy : BitcastStrategy) (a : BitVec S) : BitVec S :=
  match strategy with
  | .native => a
  | .bytecopy => byteCopy a (S / 8)

/-! ## The unrolled loop (44_static_for.md R150 to R154)

The elaboration state is any type here, as the spec leaves it (R152, D14). -/

/-- The invocation trace `[first, first + 1, ..., last - 1]` (R151). -/
def indices (first last : Int) : List Int :=
  (List.range (last - first).toNat).map fun (j : Nat) => first + (j : Int)

/-- One invocation per index, ascending, each threading the elaboration state (R150). -/
def unroll {St : Type} (cb : Int → St → St) (first last : Int) (st : St) : St :=
  (indices first last).foldl (fun st i => cb i st) st

/-- The callback of the pseudo-operation TABLE: `(i, st) -> st ++ [f(i)]` (R154). -/
def appendEntry {α : Type} (f : Int → α) : Int → List α → List α := fun i st => st ++ [f i]

/-! ## The result port and outcomes -/

/-- Drives the output port with an `n`-bit result (10_state.md R27). -/
def State.setY (s : State) {n : Nat} (v : BitVec n) : State := { s with y := ⟨n, v⟩ }

/-- What the STATICFOR before left in the elaboration state: the empty datum, where there was none or the hardware has
run (log 25). -/
def State.leftBefore (s : State) : Kept := s.elaboration.getD (.datum .nil)

/-- The end of a STATICFOR: its elaboration state, the table it builds if it is to build one, and the lines it created
(44_static_for.md R150, R152, R154). -/
def State.elaborate (s : State) (table : Bool) (st : ElabState) : State :=
  { s with
    elaboration := some st.kept
    tables := if table then s.tables ++ [st.kept] else s.tables
    created := s.created ++ st.created }

/-- Goes on from a next state, and passes a stop through. -/
def onNext (o : Host.Outcome State Fault Refusal) (f : State → State) : Host.Outcome State Fault Refusal :=
  match o with
  | .next s => .next (f s)
  | .fault r => .fault r
  | .refused r => .refused r

/-- A line that holds the descriptor `words` and takes its operands from the caller's signals on the ports. -/
def signalLine (words : List Halfword) : Line where
  words := words
  a := .signal
  b := .signal
  c := .signal
  target := none

/-! ## Wires (30_encoding.md R72): a list by wire number, numbers strictly rising -/

/-- The value a wire carries, if it is driven. -/
def readWire (ws : List (Nat × Value)) (n : Nat) : Option Value := ws.lookup n

/-- Drives a wire. -/
def writeWire (ws : List (Nat × Value)) (n : Nat) (v : Value) : List (Nat × Value) :=
  match ws with
  | [] => [(n, v)]
  | (m, u) :: rest =>
    if n < m then (n, v) :: (m, u) :: rest
    else if n = m then (n, v) :: rest
    else (m, u) :: writeWire rest n v

/-- The canonical form of the wires: numbers strictly rising. -/
def wiresWf (ws : List (Nat × Value)) : Bool := decide (ws.Pairwise fun p q => p.1 < q.1)

end Sys2Proof.Machine
end

