-- ==== Sys2Proof/Machine/Operands.lean ====
section
/-! DEFINITION. The operand ports of an instance: which there are, their widths, and what drives them
(10_state.md R25 to R27, 30_encoding.md R70). -/

namespace Sys2Proof.Machine

/-- Port `a` of an instance of width `w` (R26): the low `W` bits of the value port. No extension or scaling is applied
(30_encoding.md R70). -/
def State.aPort (s : State) (w : Width) : BitVec w.bits := s.a.setWidth w.bits

/-- The width of port `a`, or none where the operation has no value operand (R25, R26). -/
def aWidth : Instr → Option Width
  | .ones _ _ | .staticfor _ _ _ => none
  | .getbit w | .getbits w | .isbitset w | .rotr w | .rotl w => some w
  | .sext16 => some .w16
  | .sext32 => some .w32
  | .incbcd => some .w8
  | .bitcast _ source => some source

/-- The operation has port `b` (R25). -/
def hasB : Instr → Bool
  | .getbit _ | .getbits _ | .isbitset _ | .sext16 | .sext32 | .rotr _ | .rotl _ => true
  | .ones _ _ | .incbcd | .staticfor _ _ _ | .bitcast _ _ => false

/-- The operation has port `c` (R25). -/
def hasC : Instr → Bool
  | .getbits _ => true
  | .ones _ _ | .getbit _ | .isbitset _ | .sext16 | .sext32 | .rotr _ | .rotl _ | .incbcd | .staticfor _ _ _
  | .bitcast _ _ => false

/-- The width of the result, or none for STATICFOR, which has no run-time result (R27, 44_static_for.md R150). -/
def resultWidth : Instr → Option Nat
  | .ones w _ | .getbit w | .getbits w | .rotr w | .rotl w => some w.bits
  | .isbitset _ => some 1
  | .sext16 => some 16
  | .sext32 => some 32
  | .incbcd => some 8
  | .bitcast target _ => some target.bits
  | .staticfor _ _ _ => none

/-- The value a source carries: `none` when the port keeps the caller's signal, or when the wire is not driven (the
build check refuses that design first, see Netlist). -/
def sourceValue (src : Source) (ws : List (Nat × Value)) : Option Value :=
  match src with
  | .signal => none
  | .wire n => readWire ws n
  | .const v => some v

/-- What a port of `W` bits sees of a value: the pattern itself when the widths agree (30_encoding.md R70: "no
extension or scaling is applied on the way in"), else an open value (log 9). -/
def toPort (W : Nat) (v : Value) : BitVec W :=
  if h : v.width = W then v.bits.cast h else Config.mismatchedPort W v

/-- A 32-bit small operand port as a source drives it, or unchanged when it is a caller signal. -/
def smallPort (src : Source) (ws : List (Nat × Value)) (old : BitVec 32) : BitVec 32 :=
  match sourceValue src ws with
  | some v => toPort 32 v
  | none => old

/-- The value port as a source drives an instance of width `w`. -/
def valuePort (w : Width) (src : Source) (ws : List (Nat × Value)) (old : BitVec 64) : BitVec 64 :=
  match sourceValue src ws with
  | some v => (toPort w.bits v).setWidth 64
  | none => old

/-- The ports of line `l`, which holds operation `i`, with their operands presented: each port the operation has takes
what its source carries on the wires `ws` (R25, R70). -/
def present (l : Line) (i : Instr) (ws : List (Nat × Value)) (s : State) : State :=
  { s with
    a := match aWidth i with
      | some w => valuePort w l.a ws s.a
      | none => s.a
    b := if hasB i then smallPort l.b ws s.b else s.b
    c := if hasC i then smallPort l.c ws s.c else s.c }

end Sys2Proof.Machine
end

