-- ==== Sys2Proof/Machine/Bcd.lean ====
section
/-! DEFINITION. The BCD Arithmetic Helper: INCBCD (43_bcd.md). -/

namespace Sys2Proof.Machine

/-- INCBCD (R140, R142). No carry-out (R145). -/
def execIncbcd (s : State) : Host.Outcome State Fault Refusal :=
  .next (s.setY (incBcd (s.aPort .w8)))

end Sys2Proof.Machine
end

