-- ==== Sys2Proof/Machine/BitCast.lean ====
section
/-! DEFINITION. Bit-Pattern Reinterpretation: BITCAST (45_bitcast.md). -/

namespace Sys2Proof.Machine

/-- BITCAST (R160): `if S_TO != S_FROM then refuse BV2 else y <- a`, by the build's strategy (R162). -/
def execBitcast (target source : Width) (s : State) : Host.Outcome State Fault Refusal :=
  if target ≠ source then .refused (.build .bv2)
  else .next (s.setY (bitCast s.strategy (s.aPort target)))

end Sys2Proof.Machine
end

