-- ==== Sys2Proof/Machine/MaskExtract.lean ====
section
/-! DEFINITION. The Mask/Extraction Engine: ONES, GETBIT, GETBITS, ISBITSET (40_mask_extract.md). -/

namespace Sys2Proof.Machine

/-- ONES (R100): `if k > W then refuse BV1 else y <- trunc_W((1 << k) - 1)`. -/
def execOnes (w : Width) (k : Nat) (s : State) : Host.Outcome State Fault Refusal :=
  if k > w.bits then .refused (.build .bv1) else .next (s.setY (mask w.bits k))

/-- GETBIT (R101). -/
def execGetbit (w : Width) (s : State) : Host.Outcome State Fault Refusal :=
  .next (s.setY (getBit w.bits (s.aPort w) s.b))

/-- GETBITS (R102). -/
def execGetbits (w : Width) (s : State) : Host.Outcome State Fault Refusal :=
  .next (s.setY (getBits w.bits (s.aPort w) s.b s.c))

/-- ISBITSET (R103). -/
def execIsbitset (w : Width) (s : State) : Host.Outcome State Fault Refusal :=
  .next (s.setY (isBitSet w.bits (s.aPort w) s.b))

end Sys2Proof.Machine
end

