-- ==== Sys2Proof/Machine/Rotate.lean ====
section
/-! DEFINITION. The Rotation Engine: ROTR and ROTL (42_rotate.md). -/

namespace Sys2Proof.Machine

/-- ROTR (R131, R133). -/
def execRotr (w : Width) (s : State) : Host.Outcome State Fault Refusal :=
  .next (s.setY (rotateRight w.bits (s.aPort w) (rotateAmount w.bits s.b)))

/-- ROTL (R131, R134). -/
def execRotl (w : Width) (s : State) : Host.Outcome State Fault Refusal :=
  .next (s.setY (rotateLeft w.bits (s.aPort w) (rotateAmount w.bits s.b)))

end Sys2Proof.Machine
end

