-- ==== Sys2Proof/Machine/SignExtend.lean ====
section
/-! DEFINITION. The Sign-Extension Engine: SEXT16 and SEXT32, the only two instantiations (41_sign_extend.md R125). -/

namespace Sys2Proof.Machine

/-- SEXT16 (R122). -/
def execSext16 (s : State) : Host.Outcome State Fault Refusal :=
  .next (s.setY (signExtend Width.w16.bits (s.aPort .w16) s.b))

/-- SEXT32 (R123). -/
def execSext32 (s : State) : Host.Outcome State Fault Refusal :=
  .next (s.setY (signExtend Width.w32.bits (s.aPort .w32) s.b))

end Sys2Proof.Machine
end

