-- ==== Sys2Proof/Machine/Callbacks.lean ====
section
/-! DEFINITION. The callbacks of STATICFOR: what a callback term computes, the lines a callback creates, and what CBTAB
gives for an identifier (44_static_for.md R152 to R154; log 6, 28, 29). -/

namespace Sys2Proof
open Sys2Proof.Machine

/-- A list as a datum. -/
def Data.ofList : List Data → Data
  | [] => .nil
  | d :: ds => .pair d (Data.ofList ds)

/-- `x ++ y` of lists; what is no list counts as the empty one. -/
def Data.append : Data → Data → Data
  | .pair x y, d => .pair x (Data.append y d)
  | .nil, d | .int _, d | .word _, d => d

/-- A datum as an integer: a pattern by its value, and 0 for what is no number. -/
def Data.toInt : Data → Int
  | .int i => i
  | .word v => v.bits.toNat
  | .nil | .pair _ _ => 0

/-- A datum as a constant on a port: a pattern as it is, a number as the 32-bit pattern of a literal (30_encoding.md
R72). -/
def Data.toValue : Data → Value
  | .word v => v
  | .int i => ⟨32, BitVec.ofInt 32 i⟩
  | .nil | .pair _ _ => ⟨32, 0⟩

def Data.first : Data → Data
  | .pair x _ => x
  | .nil | .int _ | .word _ => .nil

def Data.second : Data → Data
  | .pair _ y => y
  | .nil | .int _ | .word _ => .nil

/-- The truth of a test as a number. -/
def Data.ofProp (p : Prop) [Decidable p] : Data := if p then .int 1 else .int 0

/-- The output of the instance `ONES.W #k` that a callback term creates (40_mask_extract.md R100). DESIGN CHOICE
(log 29): for a negative count, or one above `W`, there is no such instance; the line that the term creates refuses the
build as BV1 (`CbTerm.lines`), and the value the term has until then is open. -/
def onesValue (w : Width) (k : Int) : Value :=
  ⟨w.bits, if 0 ≤ k ∧ k ≤ w.bits then mask w.bits k.toNat else Config.onesRefused w k⟩

/-- The value of a callback term at index `i`, where the callback keeps `st` (log 28). -/
def CbTerm.eval (i : Int) (st : Data) : CbTerm → Data
  | .index => .int i
  | .state => st
  | .const d => d
  | .add x y => .int ((x.eval i st).toInt + (y.eval i st).toInt)
  | .sub x y => .int ((x.eval i st).toInt - (y.eval i st).toInt)
  | .mul x y => .int ((x.eval i st).toInt * (y.eval i st).toInt)
  | .le x y => Data.ofProp ((x.eval i st).toInt ≤ (y.eval i st).toInt)
  | .eq x y => Data.ofProp (x.eval i st = y.eval i st)
  | .choose test x y => if (test.eval i st).toInt = 0 then y.eval i st else x.eval i st
  | .pair x y => .pair (x.eval i st) (y.eval i st)
  | .first x => (x.eval i st).first
  | .second x => (x.eval i st).second
  | .append x y => (x.eval i st).append (y.eval i st)
  | .ones w k => .word (onesValue w (k.eval i st).toInt)
  | .extern n x => Config.extern n (x.eval i st)

/-- What drives a port of a created line. -/
def SourceTerm.eval (i : Int) (st : Data) : SourceTerm → Source
  | .signal => .signal
  | .wire n => .wire (n.eval i st).toInt.toNat
  | .const v => .const (v.eval i st).toValue

/-- A number fits the static immediate `k` (30_encoding.md R64). -/
def immediateFits (x : Int) : Bool := 0 ≤ x && x ≤ 255

/-- The static immediate of a created descriptor: the number where it fits, else 255 (log 16). -/
def createdImmediate (k : Int) : BitVec 8 := if immediateFits k then BitVec.ofInt 8 k else 255

/-- The descriptor of a created line. A `k` that no descriptor spells is written as 255, which every operation but
STATICFOR refuses, ONES as BV1; a STATICFOR that no descriptor spells is written without its bounds, which is BV4
(log 16). -/
def createdWords (op : BitVec 4) (ws : BitVec 2) (k first last : Int) : List Halfword :=
  let d := descriptor op ws (createdImmediate k)
  if op = 8 ∧ immediateFits k ∧ boundFits first ∧ boundFits last then
    [d, BitVec.ofInt 16 first, BitVec.ofInt 16 last]
  else [d]

/-- The instance `ONES.W #k` as a line, which drives no named wire (log 21). -/
def onesLine (w : Width) (k : Int) : Line := signalLine (createdWords 0 w.select k 0 0)

/-- The lines that computing a callback term creates: one ONES instance for every `ONES.W #k` in it whose output is
computed, so of a decision those of the chosen branch only (R152, R153; 95_test_vectors.md 2.7). -/
def CbTerm.lines (i : Int) (st : Data) : CbTerm → List Line
  | .index | .state | .const _ => []
  | .add x y | .sub x y | .mul x y | .le x y | .eq x y | .pair x y | .append x y => x.lines i st ++ y.lines i st
  | .choose test x y => test.lines i st ++ if (test.eval i st).toInt = 0 then y.lines i st else x.lines i st
  | .first x | .second x | .extern _ x => x.lines i st
  | .ones w k => k.lines i st ++ [onesLine w (k.eval i st).toInt]

/-- The lines that computing a source creates. -/
def SourceTerm.lines (i : Int) (st : Data) : SourceTerm → List Line
  | .signal => []
  | .wire x | .const x => x.lines i st

/-- The line a callback creates at index `i`. -/
def LineTerm.line (i : Int) (st : Data) (l : LineTerm) : Line where
  words := createdWords l.op l.ws (l.k.eval i st).toInt (l.first.eval i st).toInt (l.last.eval i st).toInt
  a := l.a.eval i st
  b := l.b.eval i st
  c := l.c.eval i st
  target := l.target.map fun n => (n.eval i st).toInt.toNat

/-- The lines that computing the static parameters and the wiring of a created line creates. -/
def LineTerm.parts (i : Int) (st : Data) (l : LineTerm) : List Line :=
  l.k.lines i st ++ (if l.op = 8 then l.first.lines i st ++ l.last.lines i st else []) ++
    l.a.lines i st ++ l.b.lines i st ++ l.c.lines i st ++ (l.target.map (CbTerm.lines i st)).getD []

/-- The lines of one line term: those its guard creates, and where the guard is not 0 those its parts create and the
line itself. -/
def LineTerm.lines (i : Int) (st : Data) (l : LineTerm) : List Line :=
  l.guard.lines i st ++ if (l.guard.eval i st).toInt = 0 then [] else l.parts i st ++ [l.line i st]

/-- All lines one invocation of a listed callback creates. -/
def Callback.lines (cb : Callback) (i : Int) (st : Data) : List Line :=
  cb.next.lines i st ++ cb.creates.flatMap (LineTerm.lines i st)

/-- What a listed callback reads of the elaboration state: the datum it keeps, or an open datum of what a callback that
is not listed left. -/
def Kept.seen : Kept → Data
  | .datum d => d
  | .started k before => Config.seen (.started k before)
  | .invoked k i st => Config.seen (.invoked k i st)

/-- An elaboration state read in a type St of the caller's choice, where CBTAB's callbacks are the functions `cb` and
their start states the functions `start` of what was left before (R150, R152). -/
def Kept.inType {St : Type} (ofData : Data → St) (start : BitVec 8 → St → St) (cb : BitVec 8 → Int → St → St) :
    Kept → St
  | .datum d => ofData d
  | .started k before => start k (before.inType ofData start cb)
  | .invoked k i st => cb k i (st.inType ofData start cb)

/-- A callback: a total function of the index constant and the elaboration state (R152). -/
abbrev CallbackFn := Int → ElabState → ElabState

/-- The function of a listed callback. -/
def Callback.body (cb : Callback) : CallbackFn := fun i st =>
  { kept := .datum (cb.next.eval i st.kept.seen)
    created := st.created ++ cb.lines i st.kept.seen }

/-- The start state of a listed callback, from what was left before (log 25). -/
def Callback.startFrom (cb : Callback) (before : Kept) : Kept :=
  match cb.start with
  | some d => .datum d
  | none => before

/-- The function of a callback that is not listed: its value is held as computed from what it kept, and the lines it
creates are open (log 6). -/
def openBody (k : BitVec 8) : CallbackFn := fun i st =>
  { kept := .invoked k i st.kept
    created := st.created ++ Config.callbackCreates k i st.kept }

end Sys2Proof

namespace Sys2Proof.Machine

/-- What an identifier of CBTAB stands for: the start state from what was left before, the callback, and whether its
result is a table. -/
structure CallbackMeaning where
  start : Kept → Kept
  body : CallbackFn
  table : Bool

/-- `CBTAB[k]`: the listed callback, or the open one (R152; log 6). -/
def callbackOf (cbtab : List (BitVec 8 × Callback)) (k : BitVec 8) : CallbackMeaning :=
  match cbtab.lookup k with
  | some cb => ⟨cb.startFrom, cb.body, cb.table⟩
  | none => ⟨.started k, openBody k, Config.callbackTable k⟩

/-- `st ++ [x]`. -/
def appendTerm (x : CbTerm) : CbTerm := .append .state (.pair x (.const .nil))

/-- `collect(i, st) = st ++ [i]`, starting from the empty list (R152). -/
def collect : Callback where
  start := some .nil
  next := appendTerm .index
  creates := []
  table := false

/-- The callback of `TABLE(BEGIN, END, f)`: `(i, st) -> st ++ [f(i)]`, from the empty list (R154). -/
def tableOf (f : CbTerm) : Callback where
  start := some .nil
  next := appendTerm f
  creates := []
  table := true

/-- `(i, st) -> st ++ [ONES.W #i]`: creates one ONES instance and appends its output (95_test_vectors.md P3). -/
def onesTable (w : Width) : Callback := tableOf (.ones w .index)

end Sys2Proof.Machine
end

