-- ==== Sys2Proof/Machine/StaticFor.lean ====
section
/-! DEFINITION. The Compile-Time Iteration Engine: STATICFOR (44_static_for.md). -/

namespace Sys2Proof.Machine

/-- STATICFOR (R150): BEGIN above END is refused as BV3 (R155); else the elaboration state after one invocation of
`CBTAB[k]` per index. No port and no result at run time. Lines the callback creates wait in `created` until the build
places and checks them (70_reset_and_hazards.md R191; see Netlist). DESIGN CHOICE (log 25): what `st0` is, the spec
leaves open; it is what CBTAB gives with the callback, so `collect` and a TABLE start every STATICFOR from the empty
list, also the second one of a design, and a callback that CBTAB gives no start state carries on from what the
STATICFOR before left. -/
def execStaticfor (k : BitVec 8) (first last : Int) (s : State) : Host.Outcome State Fault Refusal :=
  if first > last then .refused (.build .bv3)
  else
    let cb := callbackOf s.cbtab k
    .next (s.elaborate cb.table (unroll cb.body first last ⟨cb.start s.leftBefore, []⟩))

end Sys2Proof.Machine
end

