-- ==== Sys2Proof/Machine/Dispatch.lean ====
section
/-! DEFINITION. One arm per instruction. -/

namespace Sys2Proof.Machine

def exec (i : Instr) (s : State) : Host.Outcome State Fault Refusal :=
  match i with
  | .ones w k => Sys2Proof.Machine.execOnes w k s
  | .getbit w => Sys2Proof.Machine.execGetbit w s
  | .getbits w => Sys2Proof.Machine.execGetbits w s
  | .isbitset w => Sys2Proof.Machine.execIsbitset w s
  | .sext16 => Sys2Proof.Machine.execSext16 s
  | .sext32 => Sys2Proof.Machine.execSext32 s
  | .rotr w => Sys2Proof.Machine.execRotr w s
  | .rotl w => Sys2Proof.Machine.execRotl w s
  | .incbcd => Sys2Proof.Machine.execIncbcd s
  | .staticfor k first last => Sys2Proof.Machine.execStaticfor k first last s
  | .bitcast target source => Sys2Proof.Machine.execBitcast target source s

end Sys2Proof.Machine
end

