-- ==== Sys2Proof/Machine/Netlist.lean ====
section
/-! DEFINITION. Building a netlist: which STATICFOR is next, placing created lines, the build check of instances and
wiring, and driving a line's wire (30_encoding.md R67, R72, 70_reset_and_hazards.md R191). -/

namespace Sys2Proof.Machine

/-- The line holds a STATICFOR descriptor, told by `op` alone (30_encoding.md R69). -/
def isStaticForLine (l : Line) : Bool :=
  match l.words with
  | [] => false
  | d :: _ => opField d = 8

/-- The first STATICFOR line of a design, with the lines before and after it. Every STATICFOR is unrolled before any
instance is checked or evaluated (70_reset_and_hazards.md R191; log 8). -/
def splitStaticFor : List Line → Option (List Line × Line × List Line)
  | [] => none
  | l :: ls =>
    if isStaticForLine l then some ([], l, ls)
    else
      match splitStaticFor ls with
      | some (before, m, after) => some (l :: before, m, after)
      | none => none

/-- The first build-time violation of an instance, in listing order (60_exceptions.md R172, R176; log 20). -/
def checkInstances : List Line → Option Refusal
  | [] => none
  | l :: ls =>
    match decodeLine l.words with
    | .error v => some (.build v)
    | .ok _ => checkInstances ls

/-- The wire a source names. -/
def sourceWires : Source → List Nat
  | .wire n => [n]
  | .signal | .const _ => []

/-- The wires a line uses. -/
def lineUses (l : Line) : List Nat := sourceWires l.a ++ sourceWires l.b ++ sourceWires l.c

/-- The wiring rule of 30_encoding.md R72: every wire is driven by exactly one line or is a named input, and is used
only by later lines. `driven` are the named inputs and the wires driven before the list. -/
def checkWiring (driven : List Nat) : List Line → Option Refusal
  | [] => none
  | l :: ls =>
    match (lineUses l).find? fun n => !driven.contains n with
    | some n => some (.undrivenWire n)
    | none =>
      match l.target with
      | none => checkWiring driven ls
      | some n => if driven.contains n then some (.multiplyDrivenWire n) else checkWiring (n :: driven) ls

/-- The build check: every instance, then the wiring. "The system must not build if violated" (60_exceptions.md
R172). -/
def buildCheck (s : State) : Option Refusal :=
  match checkInstances s.netlist with
  | some r => some r
  | none => checkWiring (s.inputs.map Prod.fst) s.netlist

/-- Puts the lines that callbacks created in the place of the STATICFOR line they come from (44_static_for.md R153;
log 22). -/
def placeCreated (before after : List Line) (s : State) : State :=
  { s with
    netlist := before ++ s.created ++ after
    created := [] }

/-- The wires after a line has given `y`: the wire it names, if it names one, carries `y` (30_encoding.md R72). -/
def driveTarget (target : Option Nat) (y : Option Value) (ws : List (Nat × Value)) : List (Nat × Value) :=
  match target, y with
  | some n, some v => writeWire ws n v
  | some _, none | none, _ => ws

/-- The end of one evaluation: the ports show the caller's signals `before` again, so that no evaluation can see or
disturb another (20_memory.md R48, R49; log 2). -/
def retire (before : State) (s : State) : State :=
  { s with a := before.a, b := before.b, c := before.c }

end Sys2Proof.Machine
end

