-- ==== Sys2Proof/Machine/Evaluate.lean ====
section
/-! DEFINITION. Evaluating a built design. Its wires are combinational: "the output `y` of an instance is the function
of its current inputs that its rule gives" (10_state.md R32), so they are computed from the design and its inputs, and
every line can be evaluated at any time and as often as wanted (70_reset_and_hazards.md R190, R191). -/

namespace Sys2Proof.Machine

/-- The result of one evaluation: what `y` shows after the operation, if it gives a next state (00_scope.md R18). -/
def result (i : Instr) (s : State) : Option Value :=
  match exec i s with
  | .next t => some t.y
  | .fault _ | .refused _ => none

/-- The output of a line whose sources carry what the wires `ws` carry. -/
def lineOutput (s : State) (ws : List (Nat × Value)) (l : Line) : Option Value :=
  match decodeLine l.words with
  | .error _ => none
  | .ok i => result i (present l i ws s)

/-- The wires after the lines of a list have driven theirs, from the wires `ws`; each wire is used by later lines only
(30_encoding.md R72). -/
def settle (s : State) : List Line → List (Nat × Value) → List (Nat × Value)
  | [], ws => ws
  | l :: ls, ws => settle s ls (driveTarget l.target (lineOutput s ws l) ws)

/-- The wires that line number `n` sees: the named inputs and the wires of the lines before it. -/
def wiresBefore (s : State) (n : Nat) : List (Nat × Value) := settle s (s.netlist.take n) s.inputs

/-- All wires of the design (95_test_vectors.md Part 4: the "end state" of a program). -/
def wiresOf (s : State) : List (Nat × Value) := settle s s.netlist s.inputs

/-- The output of the instance of line number `n`, at every instant. -/
def State.output (s : State) (n : Nat) : Option Value := s.netlist[n]?.bind (lineOutput s (wiresBefore s n))

/-- The evaluation the caller asks for next, and those it asks for after it: with none listed, every line of the
listing in order (log 17). -/
def State.nextCall (s : State) : Option (Nat × List Nat) :=
  match s.calls with
  | n :: rest => some (n, rest)
  | [] =>
    match s.netlist with
    | [] => none
    | _ :: ls => some (0, List.range' 1 ls.length)

/-- The hardware runs, with the calls `rest` to come: the elaboration state is gone (10_state.md R31; log 27). -/
def State.running (s : State) (rest : List Nat) : State := { s with calls := rest, elaboration := none }

/-- One evaluation of line number `n`: its operands are presented and its operation gives `y`. A number without a line
names no instance, so nothing is evaluated (log 26). -/
def evaluate (s : State) (n : Nat) : Host.Outcome State Fault Refusal :=
  match s.netlist[n]? with
  | none => .next s
  | some l =>
    match decodeLine l.words with
    | .error v => .refused (.build v)
    | .ok i => onNext (exec i (present l i (wiresBefore s n) s)) (retire s)

end Sys2Proof.Machine
end

