-- ==== Sys2Proof/Machine/Step.lean ====
section
/-! DEFINITION. One step: a STATICFOR unrolled at build time, or, once the design is built, one evaluation. -/

namespace Sys2Proof.Machine

/-- One step of the machine (70_reset_and_hazards.md R191; log 8, 11, 17). While a STATICFOR line stands in the
netlist, the first one is unrolled and replaced by the lines its callback created. Then the build is checked, and a
violation refuses it before anything is evaluated. A built design runs: the step is the evaluation the caller asks
for next, and the design stays as it is. With nothing to evaluate the state stays as it is. -/
def step (s : State) : Host.Outcome State Fault Refusal :=
  match splitStaticFor s.netlist with
  | some (before, l, after) =>
    match decodeLine l.words with
    | .error v => .refused (.build v)
    | .ok i => onNext (exec i { s with netlist := before ++ after }) (placeCreated before after)
  | none =>
    match buildCheck s with
    | some r => .refused r
    | none =>
      match s.nextCall with
      | none => .next s
      | some (n, rest) => evaluate (s.running rest) n

/-- The state with the one descriptor whose bits are `w` as the whole design, its operands the caller's signals on the
ports (log 14). DESIGN CHOICE (log 12): a new design is being built, so its elaboration state is the empty datum,
whatever an older design left and whether or not that one ever ran (log 25), and no call of an older design stands. -/
def State.withFetchWord (s : State) (nbits w : Nat) : State :=
  { s with
    netlist := [signalLine (tableHalfwords nbits w)]
    calls := []
    elaboration := some (.datum .nil) }

end Sys2Proof.Machine
end

