-- ==== Sys2Proof/Safety.lean ====
section
/-! DEFINITION. What counts as a safe state of the model, in the terms the statements use: the invariant of the data,
a built design, and equal operands. -/

namespace Sys2Proof.Machine

/-- The data invariant: the named inputs in canonical form, no created line left outside the netlist between steps,
and no STATICFOR left to unroll once the elaboration state is gone (10_state.md R31, 44_static_for.md R153). -/
abbrev State.Inv (s : State) : Prop :=
  wiresWf s.inputs = true ∧ s.created = [] ∧ (s.elaboration = none → splitStaticFor s.netlist = none)

/-- The design is built: every STATICFOR is unrolled and the build check finds no violation
(70_reset_and_hazards.md R191). -/
abbrev State.Built (s : State) : Prop := splitStaticFor s.netlist = none ∧ buildCheck s = none

/-- Two states present the same operands on the ports that an operation has (10_state.md R25). -/
def sameOperands (i : Instr) (s t : State) : Prop :=
  (∀ w, aWidth i = some w → s.aPort w = t.aPort w) ∧
  (hasB i = true → s.b = t.b) ∧
  (hasC i = true → s.c = t.c)

end Sys2Proof.Machine
end

