-- ==== Sys2Proof/Certificates/Slice0/Obligations.lean ====
section
/-! DEFINITION. The statements for the provers, one `def Obligations.<Name> : Prop` each, listed in OBLIGATIONS.json.
A next state is written as the whole state it is, so a result statement is its own frame. -/

open Sys2Proof Sys2Proof.Machine

/-! ## Reset and decoding -/

/-- The state after reset holds no design, meets the invariant, and a step leaves it as it is. The spec has no reset
value (10_state.md R32); the values are the model's, logs 3 and 11. -/
def Obligations.ResetHoldsNothingAndIdles : Prop :=
  State.reset.netlist = [] ∧ State.reset.inputs = [] ∧ State.reset.calls = [] ∧ State.reset.tables = [] ∧
  State.reset.created = [] ∧ State.reset.cbtab = [] ∧
  State.reset.Inv ∧ State.reset.Built ∧ step State.reset = .next State.reset

/-- Words written out from 30_encoding.md R74, as 95_test_vectors.md Part 3 lists them. -/
def Obligations.ListedDescriptorsDecode : Prop :=
  decodeLine [0x080C] = .ok (.ones .w32 12) ∧ decodeLine [0x0C40] = .ok (.ones .w64 64) ∧
  decodeLine [0x1800] = .ok (.getbit .w32) ∧ decodeLine [0x2400] = .ok (.getbits .w16) ∧
  decodeLine [0x3800] = .ok (.isbitset .w32) ∧ decodeLine [0x4400] = .ok .sext16 ∧
  decodeLine [0x4800] = .ok .sext32 ∧ decodeLine [0x5000] = .ok (.rotr .w8) ∧
  decodeLine [0x6C00] = .ok (.rotl .w64) ∧ decodeLine [0x7000] = .ok .incbcd ∧
  decodeLine [0x8000, 0xFFFE, 0x0002] = .ok (.staticfor 0 (-2) 2) ∧
  decodeLine [0x9802] = .ok (.bitcast .w32 .w32) ∧
  decodeLine [0x0821] = .error .bv1 ∧ decodeLine [0x9801] = .error .bv2 ∧
  decodeLine [0x8000, 0x0005, 0x0000] = .error .bv3 ∧ decodeLine [0x8000, 0x0000] = .error .bv4

/-- `ws` selects `W = 8 << ws` (30_encoding.md R62). This spec's decision D18. -/
def Obligations.WidthSelectIsEightShifted : Prop :=
  ∀ ws : BitVec 2, (Width.ofSelect ws).bits = 8 <<< ws.toNat

/-- Every check of 30_encoding.md R67 in its order: WF1 on `z`, WF2 on `op`, WF3 on `ws`, WF4 on `k`, WF5 on the
extension halfwords; the first that fails names the refusal, and a descriptor that passes decodes. The encoding and
the order of the checks are the spec's decisions D17, D18 and D20. -/
def Obligations.FirstFailingCheckNamesTheRefusal : Prop :=
  ∀ (d : Halfword) (rest : List Halfword),
    let op := d.toNat / 4096
    let ws := d.toNat / 1024 % 4
    let z := d.toNat / 256 % 4
    let k := d.toNat % 256
    let w := Width.ofSelect (BitVec.ofNat 2 ws)
    (z ≠ 0 → decode (d :: rest) = .error .bv4) ∧
    (z = 0 → 9 < op → decode (d :: rest) = .error .bv4) ∧
    (z = 0 → op = 0 →
      (k ≤ 8 * 2 ^ ws → decode (d :: rest) = .ok (.ones w k, rest)) ∧
      (8 * 2 ^ ws < k → decode (d :: rest) = .error .bv1)) ∧
    (z = 0 → op ∈ [1, 2, 3, 5, 6] → k ≠ 0 → decode (d :: rest) = .error .bv4) ∧
    (z = 0 → k = 0 →
      (op = 1 → decode (d :: rest) = .ok (.getbit w, rest)) ∧
      (op = 2 → decode (d :: rest) = .ok (.getbits w, rest)) ∧
      (op = 3 → decode (d :: rest) = .ok (.isbitset w, rest)) ∧
      (op = 5 → decode (d :: rest) = .ok (.rotr w, rest)) ∧
      (op = 6 → decode (d :: rest) = .ok (.rotl w, rest))) ∧
    (z = 0 → op = 4 →
      (ws ≠ 1 ∧ ws ≠ 2 ∨ k ≠ 0 → decode (d :: rest) = .error .bv4) ∧
      (ws = 1 → k = 0 → decode (d :: rest) = .ok (.sext16, rest)) ∧
      (ws = 2 → k = 0 → decode (d :: rest) = .ok (.sext32, rest))) ∧
    (z = 0 → op = 7 →
      (ws ≠ 0 ∨ k ≠ 0 → decode (d :: rest) = .error .bv4) ∧
      (ws = 0 → k = 0 → decode (d :: rest) = .ok (.incbcd, rest))) ∧
    (z = 0 → op = 8 →
      (ws ≠ 0 ∨ rest.length < 2 → decode (d :: rest) = .error .bv4) ∧
      (ws = 0 → ∀ e1 e2 r, rest = e1 :: e2 :: r →
        (e2.toInt < e1.toInt → decode (d :: rest) = .error .bv3) ∧
        (e1.toInt ≤ e2.toInt →
          decode (d :: rest) = .ok (.staticfor (BitVec.ofNat 8 k) e1.toInt e2.toInt, r)))) ∧
    (z = 0 → op = 9 →
      (k / 4 ≠ 0 → decode (d :: rest) = .error .bv4) ∧
      (k / 4 = 0 → k % 4 ≠ ws → decode (d :: rest) = .error .bv2) ∧
      (k / 4 = 0 → k % 4 = ws → decode (d :: rest) = .ok (.bitcast w w, rest)))

/-- The opcode table of 30_encoding.md R74 and the decoder accept the same descriptors and name the same operation: a
descriptor decodes exactly when it matches a row and meets the row's side condition; and no halfword matches two rows.
The table is the spec's decision D18. -/
def Obligations.OpcodeTableAgreesWithTheDecoder : Prop :=
  (∀ (d e1 e2 : Halfword) (rest : List Halfword) (m : String),
    (∃ i r, decode (d :: e1 :: e2 :: rest) = .ok (i, r) ∧ i.mnemonic = m) ↔
    (∃ row ∈ opcodeTable, row.hits d = true ∧ row.mnemonic = m ∧
      (m = "ONES" → d.toNat % 256 ≤ 8 * 2 ^ (d.toNat / 1024 % 4)) ∧
      (m = "STATICFOR" → e1.toInt ≤ e2.toInt) ∧
      (m = "BITCAST" → d.toNat % 4 = d.toNat / 1024 % 4))) ∧
  (∀ d : Halfword, ∀ r1 ∈ opcodeTable, ∀ r2 ∈ opcodeTable, r1.hits d = true → r2.hits d = true → r1 = r2)

/-- A descriptor is one halfword, except STATICFOR's three, told by `op` alone (30_encoding.md R69). The spec's
decision D17. -/
def Obligations.DescriptorLengthIsToldByOp : Prop :=
  ∀ (d : Halfword) (rest r : List Halfword) (i : Instr), decode (d :: rest) = .ok (i, r) →
    (d :: rest).length = (if d.toNat / 4096 = 8 then 3 else 1) + r.length

/-- Decoding the encoding of any well-formed instruction gives it back, with whatever follows. The encoding is the
spec's decisions D17 and D18. -/
def Obligations.DecodeOfEncodeIsTheInstruction : Prop :=
  ∀ (i : Instr) (rest : List Halfword), i.wf = true → decode (encode i ++ rest) = .ok (i, rest)

/-- Whatever decodes is well-formed, and its encoding is exactly the halfwords that were read. The encoding is the
spec's decisions D17 and D18. -/
def Obligations.EncodeOfDecodeIsTheWords : Prop :=
  ∀ (words rest : List Halfword) (i : Instr), decode words = .ok (i, rest) →
    i.wf = true ∧ encode i ++ rest = words

/-! ## Mask/Extraction Engine (40_mask_extract.md) -/

/-- ONES (R100): its descriptors, its value for `k <= W`, its refusal BV1 above. -/
def Obligations.OnesGivesTheLowMask : Prop :=
  ∀ (w : Width) (k : Nat) (s : State),
    (k ≤ w.bits →
      decodeLine [BitVec.ofNat 16 (w.select.toNat * 0x400 + k)] = .ok (.ones w k) ∧
      ∃ v : BitVec w.bits, exec (.ones w k) s = .next { s with y := ⟨w.bits, v⟩ } ∧
        v.toNat = 2 ^ k - 1 ∧ ∀ i, v.getLsbD i = decide (i < k)) ∧
    (w.bits < k →
      exec (.ones w k) s = .refused (.build .bv1) ∧
      (k < 256 → decodeLine [BitVec.ofNat 16 (w.select.toNat * 0x400 + k)] = .error .bv1))

/-- The mask property (R104). -/
def Obligations.MaskHasCountOneBits : Prop :=
  ∀ (w : Width) (k : Nat) (s : State), k ≤ w.bits →
    ∃ v : BitVec w.bits, exec (.ones w k) s = .next { s with y := ⟨w.bits, v⟩ } ∧
      popcount v = k ∧ (∀ i, k ≤ i → v.getLsbD i = false) ∧ (k = 0 → v = 0)

/-- GETBIT (R101): its descriptor, the bit as 0 or 1 for an offset below `W`, the open value otherwise. The bound on
the offset is R101's own derivation, and the form of the open value the spec's decision D7. -/
def Obligations.GetbitGivesTheBit : Prop :=
  ∀ (w : Width) (s : State),
    decodeLine [BitVec.ofNat 16 (0x1000 + w.select.toNat * 0x400)] = .ok (.getbit w) ∧
    (s.b.toNat < w.bits →
      ∃ v : BitVec w.bits, exec (.getbit w) s = .next { s with y := ⟨w.bits, v⟩ } ∧
        v.toNat = (s.aPort w).toNat / 2 ^ s.b.toNat % 2 ∧
        v = if (s.aPort w).getLsbD s.b.toNat then 1 else 0) ∧
    (w.bits ≤ s.b.toNat →
      exec (.getbit w) s = .next { s with y := ⟨w.bits, Config.uGetbit w.bits (s.aPort w) s.b⟩ })

/-- GETBITS (R102): its descriptor, the right-aligned Field when it fits, the open value otherwise. -/
def Obligations.GetbitsGivesTheField : Prop :=
  ∀ (w : Width) (s : State),
    decodeLine [BitVec.ofNat 16 (0x2000 + w.select.toNat * 0x400)] = .ok (.getbits w) ∧
    (s.b.toNat + s.c.toNat ≤ w.bits →
      ∃ v : BitVec w.bits, exec (.getbits w) s = .next { s with y := ⟨w.bits, v⟩ } ∧
        v.toNat = (s.aPort w).toNat / 2 ^ s.b.toNat % 2 ^ s.c.toNat ∧
        ∀ i, v.getLsbD i = (decide (i < s.c.toNat) && (s.aPort w).getLsbD (s.b.toNat + i))) ∧
    (w.bits < s.b.toNat + s.c.toNat →
      exec (.getbits w) s = .next { s with y := ⟨w.bits, Config.uGetbits w.bits (s.aPort w) s.b s.c⟩ })

/-- The edge cases of GETBITS (R105): zero width, full width, offset equal to the width, and the top bits. -/
def Obligations.GetbitsEdgesOfTheField : Prop :=
  ∀ (w : Width) (s : State),
    (s.c.toNat = 0 → s.b.toNat ≤ w.bits → exec (.getbits w) s = .next { s with y := ⟨w.bits, 0⟩ }) ∧
    (s.c.toNat = w.bits → s.b.toNat + s.c.toNat ≤ w.bits →
      s.b.toNat = 0 ∧ exec (.getbits w) s = .next { s with y := ⟨w.bits, s.aPort w⟩ }) ∧
    (1 ≤ s.c.toNat → s.b.toNat + s.c.toNat = w.bits →
      exec (.getbits w) s = .next { s with y := ⟨w.bits, s.aPort w >>> (w.bits - s.c.toNat)⟩ })

/-- ISBITSET (R103): its descriptor, the bit itself for an offset below `W`, the open value tested against zero
otherwise. -/
def Obligations.IsbitsetTestsTheBit : Prop :=
  ∀ (w : Width) (s : State),
    decodeLine [BitVec.ofNat 16 (0x3000 + w.select.toNat * 0x400)] = .ok (.isbitset w) ∧
    (s.b.toNat < w.bits →
      exec (.isbitset w) s =
        .next { s with y := ⟨1, BitVec.ofBool ((s.aPort w).getLsbD s.b.toNat)⟩ }) ∧
    (w.bits ≤ s.b.toNat →
      exec (.isbitset w) s =
        .next { s with y := ⟨1, BitVec.ofBool (decide (Config.uGetbit w.bits (s.aPort w) s.b ≠ 0))⟩ })

/-- The relations between the four operations (R106), and the two uses of the mask: an oversized count fails the
build in ONES and gives an open value in GETBITS. -/
def Obligations.ExtractionOperationsAgree : Prop :=
  ∀ (w : Width) (s : State),
    (s.b.toNat < w.bits → result (.getbit w) s = result (.getbits w) { s with c := 1 }) ∧
    (s.b.toNat + s.c.toNat ≤ w.bits →
      ∃ m : BitVec w.bits, result (.ones w s.c.toNat) s = some ⟨w.bits, m⟩ ∧
        result (.getbits w) s = some ⟨w.bits, (s.aPort w >>> s.b.toNat) &&& m⟩) ∧
    (s.b.toNat < w.bits →
      (result (.isbitset w) s = some ⟨1, 1⟩ ↔ result (.getbit w) s = some ⟨w.bits, 1⟩)) ∧
    (w.bits < s.c.toNat →
      exec (.ones w s.c.toNat) s = .refused (.build .bv1) ∧
      result (.getbits w) s = some ⟨w.bits, Config.uGetbits w.bits (s.aPort w) s.b s.c⟩)

/-! ## Sign-Extension Engine (41_sign_extend.md) -/

/-- SEXT16 (R122, with the function of R120): its descriptor, its value for a starting width 1 to 16, the open value
otherwise. -/
def Obligations.SextSixteenExtendsTheSign : Prop :=
  ∀ s : State,
    decodeLine [0x4400] = .ok .sext16 ∧
    (1 ≤ s.b.toNat → s.b.toNat ≤ 16 →
      ∃ v : BitVec 16, exec .sext16 s = .next { s with y := ⟨16, v⟩ } ∧
        (∀ i, i < 16 → v.getLsbD i =
          if i < s.b.toNat then (s.aPort .w16).getLsbD i else (s.aPort .w16).getLsbD (s.b.toNat - 1)) ∧
        v.toNat = (let u := (s.aPort .w16).toNat % 2 ^ s.b.toNat
          if u < 2 ^ (s.b.toNat - 1) then u else u + 2 ^ 16 - 2 ^ s.b.toNat)) ∧
    (s.b.toNat < 1 ∨ 16 < s.b.toNat →
      exec .sext16 s = .next { s with y := ⟨16, Config.uSext 16 (s.aPort .w16) s.b⟩ })

/-- SEXT32 (R123, with the function of R120): its descriptor, its value for a starting width 1 to 32, the open value
otherwise. -/
def Obligations.SextThirtyTwoExtendsTheSign : Prop :=
  ∀ s : State,
    decodeLine [0x4800] = .ok .sext32 ∧
    (1 ≤ s.b.toNat → s.b.toNat ≤ 32 →
      ∃ v : BitVec 32, exec .sext32 s = .next { s with y := ⟨32, v⟩ } ∧
        (∀ i, i < 32 → v.getLsbD i =
          if i < s.b.toNat then (s.aPort .w32).getLsbD i else (s.aPort .w32).getLsbD (s.b.toNat - 1)) ∧
        v.toNat = (let u := (s.aPort .w32).toNat % 2 ^ s.b.toNat
          if u < 2 ^ (s.b.toNat - 1) then u else u + 2 ^ 32 - 2 ^ s.b.toNat)) ∧
    (s.b.toNat < 1 ∨ 32 < s.b.toNat →
      exec .sext32 s = .next { s with y := ⟨32, Config.uSext 32 (s.aPort .w32) s.b⟩ })

/-- The source's construction by a left shift and an arithmetic right shift gives the same value (R121). -/
def Obligations.SignExtensionIsTheShiftConstruction : Prop :=
  ∀ s : State,
    (1 ≤ s.b.toNat → s.b.toNat ≤ 16 →
      exec .sext16 s =
        .next { s with y := ⟨16, (s.aPort .w16 <<< (16 - s.b.toNat)).sshiftRight (16 - s.b.toNat)⟩ }) ∧
    (1 ≤ s.b.toNat → s.b.toNat ≤ 32 →
      exec .sext32 s =
        .next { s with y := ⟨32, (s.aPort .w32 <<< (32 - s.b.toNat)).sshiftRight (32 - s.b.toNat)⟩ })

/-- The laws of sign extension (R126 a to f), of the function that SEXT16 and SEXT32 compute. The spec derives them
from R120 and R102. -/
def Obligations.SignExtensionLaws : Prop :=
  (∀ (O : Nat) (a a' : BitVec O) (b b' : BitVec 32), O = 16 ∨ O = 32 → 1 ≤ b.toNat → b.toNat ≤ O →
    (b.toNat = O → signExtend O a b = a) ∧
    (a.toNat % 2 ^ b.toNat = a'.toNat % 2 ^ b.toNat → signExtend O a b = signExtend O a' b) ∧
    (b.toNat ≤ b'.toNat → b'.toNat ≤ O → signExtend O (signExtend O a b) b' = signExtend O a b) ∧
    (∀ i, i < b.toNat → (signExtend O a b).getLsbD i = a.getLsbD i) ∧
    -(2 : Int) ^ (b.toNat - 1) ≤ (signExtend O a b).toInt ∧
    (signExtend O a b).toInt ≤ (2 : Int) ^ (b.toNat - 1) - 1) ∧
  (∀ (x b c : BitVec 32), 1 ≤ c.toNat → b.toNat + c.toNat ≤ 32 →
    let field := x.toNat / 2 ^ b.toNat % 2 ^ c.toNat
    (signExtend 32 (getBits 32 x b c) c).toInt =
      if field < 2 ^ (c.toNat - 1) then (field : Int) else (field : Int) - 2 ^ c.toNat)

/-! ## Rotation Engine (42_rotate.md) -/

/-- ROTR (R133): its descriptor, and its value for every amount, by the formula and bit by bit. -/
def Obligations.RotrRotatesRight : Prop :=
  ∀ (w : Width) (s : State),
    decodeLine [BitVec.ofNat 16 (0x5000 + w.select.toNat * 0x400)] = .ok (.rotr w) ∧
    ∃ v : BitVec w.bits, exec (.rotr w) s = .next { s with y := ⟨w.bits, v⟩ } ∧
      (let n := (s.b.toInt % (w.bits : Int)).toNat
       v.toNat = ((s.aPort w).toNat / 2 ^ n) ||| ((s.aPort w).toNat * 2 ^ (w.bits - n) % 2 ^ w.bits) ∧
       ∀ i, i < w.bits → v.getLsbD i = (s.aPort w).getLsbD ((i + n) % w.bits))

/-- ROTL (R134): its descriptor, and its value for every amount, by the formula and bit by bit. -/
def Obligations.RotlRotatesLeft : Prop :=
  ∀ (w : Width) (s : State),
    decodeLine [BitVec.ofNat 16 (0x6000 + w.select.toNat * 0x400)] = .ok (.rotl w) ∧
    ∃ v : BitVec w.bits, exec (.rotl w) s = .next { s with y := ⟨w.bits, v⟩ } ∧
      (let n := (s.b.toInt % (w.bits : Int)).toNat
       v.toNat = ((s.aPort w).toNat * 2 ^ n % 2 ^ w.bits) ||| ((s.aPort w).toNat / 2 ^ (w.bits - n)) ∧
       ∀ i, i < w.bits → v.getLsbD i = (s.aPort w).getLsbD (((i : Int) - n) % (w.bits : Int)).toNat)

/-- The reduction of the amount (R131): a legal shift count, the same under the signed and the unsigned reading of the
port, and the only thing of the amount that the result depends on. The spec's decision D9. -/
def Obligations.RotateAmountIsReducedModuloTheWidth : Prop :=
  ∀ (w : Width) (s : State) (b' : BitVec 32),
    (0 ≤ s.b.toInt % (w.bits : Int) ∧ s.b.toInt % (w.bits : Int) < w.bits) ∧
    s.b.toInt % (w.bits : Int) = ((s.b.toNat % w.bits : Nat) : Int) ∧
    (s.b.toNat % w.bits = b'.toNat % w.bits →
      result (.rotr w) { s with b := b' } = result (.rotr w) s ∧
      result (.rotl w) { s with b := b' } = result (.rotl w) s)

/-- A reduced amount of zero is the identity, for ROTR and ROTL (R132). -/
def Obligations.RotateByMultipleOfWidthIsIdentity : Prop :=
  ∀ (w : Width) (s : State), s.b.toInt % (w.bits : Int) = 0 →
    exec (.rotr w) s = .next { s with y := ⟨w.bits, s.aPort w⟩ } ∧
    exec (.rotl w) s = .next { s with y := ⟨w.bits, s.aPort w⟩ }

/-- The round trip in both orders, and the two identities (R135). The second order is R135's own derivation. -/
def Obligations.RotationRoundTrip : Prop :=
  ∀ (w : Width) (s : State),
    (∃ v : BitVec w.bits, exec (.rotr w) s = .next { s with y := ⟨w.bits, v⟩ } ∧
      result (.rotl w) { s with a := v.setWidth 64 } = some ⟨w.bits, s.aPort w⟩) ∧
    (∃ v : BitVec w.bits, exec (.rotl w) s = .next { s with y := ⟨w.bits, v⟩ } ∧
      result (.rotr w) { s with a := v.setWidth 64 } = some ⟨w.bits, s.aPort w⟩) ∧
    result (.rotr w) { s with b := 0 } = some ⟨w.bits, s.aPort w⟩ ∧
    result (.rotr w) { s with b := BitVec.ofNat 32 w.bits } = some ⟨w.bits, s.aPort w⟩

/-- The further laws of rotation (R136 a to e). The amounts are 32-bit patterns, whose sums and negatives agree with
those of integers modulo the width. The spec derives them from R131, R133 and R134. -/
def Obligations.RotationLaws : Prop :=
  ∀ (w : Width) (s : State) (p q : BitVec 32),
    result (.rotl w) { s with b := p } = result (.rotr w) { s with b := -p } ∧
    result (.rotl w) { s with b := p } =
      result (.rotr w) { s with b := BitVec.ofNat 32 (w.bits - p.toNat % w.bits) } ∧
    result (.rotr w) { s with b := p + BitVec.ofNat 32 w.bits } = result (.rotr w) { s with b := p } ∧
    (∃ v : BitVec w.bits, result (.rotr w) { s with b := p } = some ⟨w.bits, v⟩ ∧
      result (.rotr w) { s with a := v.setWidth 64, b := q } = result (.rotr w) { s with b := p + q } ∧
      popcount v = popcount (s.aPort w)) ∧
    result (.rotr w) { s with b := BitVec.ofNat 32 (w.bits / 2) } =
      result (.rotl w) { s with b := BitVec.ofNat 32 (w.bits / 2) }

/-! ## BCD Arithmetic Helper (43_bcd.md) -/

/-- INCBCD (R140, with the domain of R141): its descriptor, its value inside the domain without 0x99, the open value
otherwise (R142). That 0x99 is treated as outside is the spec's reading D8, which the pseudocode of R140 states. -/
def Obligations.IncbcdIncrementsTheDigits : Prop :=
  ∀ s : State,
    let a := s.aPort .w8
    let valid := a.toNat / 16 ≤ 9 ∧ a.toNat % 16 ≤ 9
    decodeLine [0x7000] = .ok .incbcd ∧
    (valid → a.toNat ≠ 0x99 →
      ∃ v : BitVec 8, exec .incbcd s = .next { s with y := ⟨8, v⟩ } ∧
        v.toNat = if a.toNat % 16 = 9 then a.toNat + 7 else a.toNat + 1) ∧
    (¬ valid ∨ a.toNat = 0x99 → exec .incbcd s = .next { s with y := ⟨8, Config.uBcd a⟩ })

/-- The laws inside the precondition (R144 a to d): the successor is a BCD byte, stands for one more, carries from the
low digit only at 9, and 99 increments from 0x00 visit every BCD byte in decimal order. The spec derives them from
R140 and R141. -/
def Obligations.IncbcdIsTheDecimalSuccessor : Prop :=
  (∀ s : State, bcdValid (s.aPort .w8) = true → s.aPort .w8 ≠ 0x99 →
    let a := s.aPort .w8
    let y := incBcd a
    exec .incbcd s = .next { s with y := ⟨8, y⟩ } ∧ bcdValid y = true ∧
    10 * (y.toNat / 16) + y.toNat % 16 = 10 * (a.toNat / 16) + a.toNat % 16 + 1 ∧
    (a.toNat % 16 ≠ 9 → y.toNat / 16 = a.toNat / 16 ∧ y.toNat % 16 = a.toNat % 16 + 1) ∧
    (a.toNat % 16 = 9 → y.toNat / 16 = a.toNat / 16 + 1 ∧ y.toNat % 16 = 0)) ∧
  (∀ n : Nat, n ≤ 99 →
    (Nat.iterate incBcd n 0).toNat = 16 * (n / 10) + n % 10 ∧ bcdValid (Nat.iterate incBcd n 0) = true)

/-- The literal datapath agrees with INCBCD inside the precondition, and gives the candidates R143 lists outside it;
no meaning uses it there. -/
def Obligations.BcdDatapathAgreesInsideTheDomain : Prop :=
  (∀ a : BitVec 8, dpBcd a = a + (if a.toNat % 16 = 9 then 7 else 1)) ∧
  (∀ a : BitVec 8, bcdValid a = true → a ≠ 0x99 → incBcd a = dpBcd a) ∧
  dpBcd 0x99 = 0xA0 ∧ dpBcd 0x0A = 0x0B ∧ dpBcd 0x9F = 0xA0 ∧ dpBcd 0xF9 = 0x00 ∧ dpBcd 0xFF = 0x00

/-! ## Compile-Time Iteration Engine (44_static_for.md) -/

/-- STATICFOR (R150, R151, R155): its descriptor; one invocation of the callback per index of `[first, last)`, strictly
ascending, each threading the elaboration state, from the start state CBTAB gives; the result is the elaboration state
after the last invocation, and nothing else changes but the table and the lines it leaves; no invocation for an empty
range; refused as BV3 for a reversed one; and a violation by an instance that stands in the unrolled design fails the
whole build. BV3 is the spec's decision D12, the form of the elaboration state and of CBTAB its decision D14 and log 6,
the start state log 25, tables and created lines logs 22 and 27, and that the violation shows as a refusal of the step
once every STATICFOR is unrolled the spec's decision D20 and logs 8 and 19. -/
def Obligations.StaticforUnrollsTheRange : Prop :=
  ∀ (k : BitVec 8) (first last : Int) (s : State),
    let cb := callbackOf s.cbtab k
    let start : ElabState := ⟨cb.start s.leftBefore, []⟩
    let after := fun st : ElabState => { s with
      elaboration := some st.kept
      tables := if cb.table then s.tables ++ [st.kept] else s.tables
      created := s.created ++ st.created }
    (∀ e1 e2 : Halfword, e1.toInt = first → e2.toInt = last → first ≤ last →
      decodeLine [BitVec.ofNat 16 (0x8000 + k.toNat), e1, e2] = .ok (.staticfor k first last)) ∧
    (first ≤ last →
      ∃ passed : List Int, passed.length = (last - first).toNat ∧
        (∀ j, j < passed.length → passed[j]? = some (first + (j : Int))) ∧
        exec (.staticfor k first last) s = .next (after (passed.foldl (fun st i => cb.body i st) start))) ∧
    (first = last → exec (.staticfor k first last) s = .next (after start)) ∧
    (last < first → exec (.staticfor k first last) s = .refused (.build .bv3)) ∧
    (splitStaticFor s.netlist = none → ∀ l ∈ s.netlist, ∀ v, decodeLine l.words = .error v →
      ∃ v', step s = .refused (.build v'))

/-- The callback `collect` leaves the list of every index constant, in order, from the empty list, whatever an earlier
STATICFOR left (R152). The form of a callback is the spec's decision D14 and log 6, its start state log 25. -/
def Obligations.CollectGathersTheIndices : Prop :=
  ∀ (k : BitVec 8) (first last : Int) (s : State), first ≤ last → s.cbtab.lookup k = some collect →
    ∃ entries : List Data, entries.length = (last - first).toNat ∧
      (∀ j, j < entries.length → entries[j]? = some (.int (first + (j : Int)))) ∧
      exec (.staticfor k first last) s = .next { s with elaboration := some (.datum (Data.ofList entries)) }

/-- TABLE (R154): the appending callback of any function `f`, to values of any type, from the empty list, gives
`f(first), ..., f(last - 1)`, entry `j` being `f(first + j)`; and STATICFOR with the callback of TABLE at any term that
computes `f` from the index, and creates the lines `g` in doing so, leaves exactly that list as a table of the hardware
and those lines, whatever an earlier STATICFOR left. The spec derives it from R150 to R152; the start state is log 25,
the tables log 27, the lines a term creates logs 21 and 29. -/
def Obligations.TableHoldsOneEntryPerIndex : Prop :=
  (∀ (α : Type) (f : Int → α) (first last : Int), first ≤ last →
    let t := unroll (appendEntry f) first last []
    t.length = (last - first).toNat ∧ ∀ j, j < t.length → t[j]? = some (f (first + (j : Int)))) ∧
  (∀ (x : CbTerm) (f : Int → Data) (g : Int → List Line),
    (∀ i st, x.eval i st = f i) → (∀ i st, x.lines i st = g i) →
    ∀ (k : BitVec 8) (first last : Int) (s : State), first ≤ last → s.cbtab.lookup k = some (tableOf x) →
      ∃ entries : List Data, entries.length = (last - first).toNat ∧
        (∀ j, j < entries.length → entries[j]? = some (f (first + (j : Int)))) ∧
        exec (.staticfor k first last) s = .next { s with
          elaboration := some (.datum (Data.ofList entries))
          tables := s.tables ++ [.datum (Data.ofList entries)]
          created := s.created ++ (List.range (last - first).toNat).flatMap fun (j : Nat) => g (first + (j : Int)) })

/-- The elaboration state may be of any type St (00_scope.md R9, R152). The STATICFOR of a callback that is not listed
leaves, for every St and whatever functions on it stand in CBTAB, the value that read in St is the unrolling of that
callback's function from its start state. And a callback over any St, represented in the machine by any function,
unrolls there to the representation of what it unrolls to over St. The form of the elaboration state is log 6. -/
def Obligations.StaticforRunsOverAnyElaborationState : Prop :=
  (∀ (St : Type) (ofData : Data → St) (start : BitVec 8 → St → St) (cb : BitVec 8 → Int → St → St)
    (k : BitVec 8) (first last : Int) (s : State), first ≤ last → s.cbtab.lookup k = none →
    ∃ t st, exec (.staticfor k first last) s = .next t ∧ t.elaboration = some st ∧
      st.inType ofData start cb =
        unroll (cb k) first last (start k (s.leftBefore.inType ofData start cb))) ∧
  (∀ (St : Type) (represent : St → Kept) (cb : Int → St → St) (k : BitVec 8) (st0 : St) (first last : Int) (s : State),
    first ≤ last → (callbackOf s.cbtab k).start s.leftBefore = represent st0 →
    (∀ i st ls, (callbackOf s.cbtab k).body i ⟨represent st, ls⟩ = ⟨represent (cb i st), ls⟩) →
    ∃ t, exec (.staticfor k first last) s = .next t ∧ t.created = s.created ∧
      t.elaboration = some (represent (unroll cb first last st0)))

/-- P3's callback leaves one ONES instance and one mask per index, and no STATICFOR line (R153, R154). That created
instances are lines of the netlist is log 6, what the table holds and that its term creates the instance logs 21 and
29. -/
def Obligations.MaskTableCreatesOneInstancePerIndex : Prop :=
  ∀ (k : BitVec 8) (w : Width) (first last : Int) (s : State),
    0 ≤ first → first ≤ last → last ≤ (w.bits : Int) + 1 → s.cbtab.lookup k = some (onesTable w) →
    ∃ (entries : List Data) (lines : List Line),
      exec (.staticfor k first last) s = .next { s with
        elaboration := some (.datum (Data.ofList entries))
        tables := s.tables ++ [.datum (Data.ofList entries)]
        created := s.created ++ lines } ∧
      entries.length = (last - first).toNat ∧ lines.length = (last - first).toNat ∧
      splitStaticFor lines = none ∧
      ∀ j : Nat, j < (last - first).toNat →
        (∃ v : BitVec w.bits, entries[j]? = some (.word ⟨w.bits, v⟩) ∧ v.toNat = 2 ^ (first.toNat + j) - 1) ∧
        (∃ l, lines[j]? = some l ∧ decodeLine l.words = .ok (.ones w (first.toNat + j)))

/-! ## Bit-Pattern Reinterpretation (45_bitcast.md) -/

/-- BITCAST (R160, R162): its descriptors; equal sizes pass every bit, whichever strategy the build chose; unequal
sizes are refused as BV2. -/
def Obligations.BitcastPassesTheBits : Prop :=
  ∀ (target source : Width) (s : State),
    (target = source →
      decodeLine [BitVec.ofNat 16 (0x9000 + target.select.toNat * 0x400 + source.select.toNat)] =
        .ok (.bitcast target source) ∧
      exec (.bitcast target source) s = .next { s with y := ⟨source.bits, s.aPort source⟩ } ∧
      ∀ strategy, exec (.bitcast target source) { s with strategy := strategy } =
        .next { s with y := ⟨source.bits, s.aPort source⟩, strategy := strategy }) ∧
    (target ≠ source →
      decodeLine [BitVec.ofNat 16 (0x9000 + target.select.toNat * 0x400 + source.select.toNat)] = .error .bv2 ∧
      exec (.bitcast target source) s = .refused (.build .bv2))

/-- The byte copy moves byte `i` to byte `i`, for patterns of every whole number of bytes (R162, 20_memory.md R45), so
it is the identity. The byte numbering is the spec's decisions D4 and D15. -/
def Obligations.ByteCopyIsTheIdentity : Prop :=
  ∀ (n : Nat) (a : BitVec (8 * n)),
    bitCast .bytecopy a = a ∧
    ∀ j, j < n → (bitCast .bytecopy a).extractLsb' (8 * j) 8 = a.extractLsb' (8 * j) 8

/-- Casting and casting back gives the pattern, for every pattern (R163). -/
def Obligations.BitcastRoundTrip : Prop :=
  ∀ (w : Width) (s : State), ∃ v : BitVec w.bits,
    exec (.bitcast w w) s = .next { s with y := ⟨w.bits, v⟩ } ∧
    result (.bitcast w w) { s with a := v.setWidth 64 } = some ⟨w.bits, s.aPort w⟩

/-! ## Laws of all operations -/

/-- Run-time precondition violations PV1 to PV4 (60_exceptions.md R173): the operation completes with the open value
of the result width, a function of its operands, and changes nothing else. The form of the open values is the spec's
decision D7. -/
def Obligations.ViolatedPreconditionsGiveOpenValues : Prop :=
  ∀ (w : Width) (s : State),
    (w.bits ≤ s.b.toNat →
      exec (.getbit w) s = .next { s with y := ⟨w.bits, Config.uGetbit w.bits (s.aPort w) s.b⟩ } ∧
      exec (.isbitset w) s =
        .next { s with y := ⟨1, BitVec.ofBool (decide (Config.uGetbit w.bits (s.aPort w) s.b ≠ 0))⟩ }) ∧
    (w.bits < s.b.toNat + s.c.toNat →
      exec (.getbits w) s = .next { s with y := ⟨w.bits, Config.uGetbits w.bits (s.aPort w) s.b s.c⟩ }) ∧
    (s.b.toNat < 1 ∨ 16 < s.b.toNat →
      exec .sext16 s = .next { s with y := ⟨16, Config.uSext 16 (s.aPort .w16) s.b⟩ }) ∧
    (s.b.toNat < 1 ∨ 32 < s.b.toNat →
      exec .sext32 s = .next { s with y := ⟨32, Config.uSext 32 (s.aPort .w32) s.b⟩ }) ∧
    (bcdValid (s.aPort .w8) = false ∨ s.aPort .w8 = 0x99 →
      exec .incbcd s = .next { s with y := ⟨8, Config.uBcd (s.aPort .w8)⟩ })

/-- No step faults, and every operation inside its static precondition completes at every state and for all operands:
a run-time operation with a value of its result width on `y` and nothing else changed, STATICFOR with a new
elaboration state, the tables and created lines it leaves, and nothing else changed (60_exceptions.md R171 for the
run-time operations, R150 and R152 for STATICFOR). The result widths are the spec's decision D10 (10_state.md R27); the
form of the elaboration state is log 6, of created lines log 22, of tables log 27. -/
def Obligations.EveryOperationCompletes : Prop :=
  (∀ (s : State) (f : Fault), step s ≠ .fault f) ∧
  (∀ (i : Instr) (s : State), i.violation = none →
    (i.isStatic = false →
      ∃ n, ∃ v : BitVec n, resultWidth i = some n ∧ exec i s = .next { s with y := ⟨n, v⟩ }) ∧
    (i.isStatic = true → ∃ st tables created, exec i s = .next { s with
      elaboration := some st, tables := s.tables ++ tables, created := s.created ++ created }))

/-- The widths of the results (10_state.md R27). The spec's decision D10. -/
def Obligations.ResultWidths : Prop :=
  ∀ (w : Width) (k : Nat) (s t : State),
    (exec (.ones w k) s = .next t ∨ exec (.getbits w) s = .next t ∨ exec (.rotr w) s = .next t ∨
      exec (.rotl w) s = .next t → t.y.width = w.bits) ∧
    (exec (.getbit w) s = .next t → t.y.width = w.bits) ∧
    (exec (.isbitset w) s = .next t → t.y.width = 1) ∧
    (exec .sext16 s = .next t → t.y.width = 16) ∧
    (exec .sext32 s = .next t → t.y.width = 32) ∧
    (exec .incbcd s = .next t → t.y.width = 8) ∧
    (∀ source, exec (.bitcast w source) s = .next t → t.y.width = w.bits ∧ t.y.width = source.bits)

/-- The frame of every operation: a run-time operation changes `y` alone, STATICFOR the elaboration state, the tables
and the created lines alone, and it takes no table and no created line away (10_state.md R31, 44_static_for.md R152).
The form of created lines is log 22 and of tables log 27. -/
def Obligations.OperationsChangeOnlyTheirResult : Prop :=
  ∀ (i : Instr) (s t : State), exec i s = .next t →
    (i.isStatic = false → t = { s with y := t.y }) ∧
    (i.isStatic = true →
      t = { s with elaboration := t.elaboration, tables := t.tables, created := t.created } ∧
      s.tables <+: t.tables ∧ s.created <+: t.created)

/-- Equal operands give equal results, whatever else the two states hold, open values included (10_state.md R30). -/
def Obligations.EqualOperandsGiveEqualResults : Prop :=
  ∀ (i : Instr) (s t : State), i.isStatic = false → sameOperands i s t → result i s = result i t

/-- No evaluation disturbs another: after any run-time operation, every other gives the result it would have given
before (20_memory.md R48, R49). -/
def Obligations.EvaluationsDoNotDisturbEachOther : Prop :=
  ∀ (i j : Instr) (s t : State), i.isStatic = false → j.isStatic = false → exec i s = .next t →
    result j t = result j s

/-! ## The netlist and the step -/

/-- A step runs the decoded instruction. At the line the caller asks for next, in a built design, it is `exec` of the
line's instruction with the line's operands on the ports, then the caller's signals back on the ports; while a
STATICFOR line stands in the design it is `exec` of the first of them, then the created lines in its place. The
sequencing is the model's choice, logs 8, 17 and 22, and that the elaboration state is gone as it runs log 27. -/
def Obligations.StepRunsTheDecodedInstruction : Prop :=
  (∀ (s : State) (n : Nat) (rest : List Nat) (l : Line) (i : Instr), s.Built → s.nextCall = some (n, rest) →
    s.netlist[n]? = some l → decodeLine l.words = .ok i →
    let s' := { s with calls := rest, elaboration := none }
    step s = onNext (exec i (present l i (wiresBefore s' n) s')) (retire s')) ∧
  (∀ (s : State) (before after : List Line) (l : Line) (i : Instr),
    s.netlist = before ++ l :: after → (∀ m ∈ before, isStaticForLine m = false) → isStaticForLine l = true →
    decodeLine l.words = .ok i →
    step s = onNext (exec i { s with netlist := before ++ after }) (placeCreated before after))

/-- A word placed where the step fetches is run as the very next instruction, with the caller's signals as operands.
How a program comes to run, and the numbering of the bits, are the model's choice, logs 12 and 14. -/
def Obligations.FetchedWordRunsNext : Prop :=
  ∀ (s : State) (nbits w : Nat) (i : Instr), decodeTableWord nbits w = some i →
    let loaded := s.withFetchWord nbits w
    (i.isStatic = false → step loaded = exec i { loaded with elaboration := none }) ∧
    (i.isStatic = true → step loaded = onNext (exec i { loaded with netlist := [] }) (placeCreated [] []))

/-- The step that reaches a STATICFOR: the line is replaced by the lines its callback created, the elaboration state is
that after the last invocation, its table is built if it builds one, and nothing else changes; no loop is left of it
(44_static_for.md R153). That of several STATICFOR lines the first in listing order is unrolled is the model's choice,
log 8, where the lines are placed log 22, the start state log 25 and the tables log 27. -/
def Obligations.StaticforStepPlacesTheCreatedLines : Prop :=
  ∀ (s : State) (before after : List Line) (l : Line) (k : BitVec 8) (first last : Int),
    s.netlist = before ++ l :: after → (∀ m ∈ before, isStaticForLine m = false) →
    decodeLine l.words = .ok (.staticfor k first last) →
    let cb := callbackOf s.cbtab k
    let st := unroll cb.body first last ⟨cb.start s.leftBefore, []⟩
    step s = .next { s with
      netlist := before ++ (s.created ++ st.created) ++ after
      created := []
      elaboration := some st.kept
      tables := if cb.table then s.tables ++ [st.kept] else s.tables }

/-- What a port sees (30_encoding.md R70): a value of the port's width as it is, or the caller's signal. -/
def Obligations.PortsSeeTheWiredPattern : Prop :=
  ∀ (l : Line) (i : Instr) (ws : List (Nat × Value)) (s : State),
    (∀ (w : Width) (v : BitVec w.bits), aWidth i = some w → sourceValue l.a ws = some ⟨w.bits, v⟩ →
      (present l i ws s).aPort w = v) ∧
    (∀ v : BitVec 32, hasB i = true → sourceValue l.b ws = some ⟨32, v⟩ → (present l i ws s).b = v) ∧
    (∀ v : BitVec 32, hasC i = true → sourceValue l.c ws = some ⟨32, v⟩ → (present l i ws s).c = v) ∧
    (l.a = .signal → (present l i ws s).a = s.a) ∧ (l.b = .signal → (present l i ws s).b = s.b) ∧
    (l.c = .signal → (present l i ws s).c = s.c)

/-- A driven wire carries what drove it, and every other wire what it carried before. -/
def Obligations.WireReadsWhatDroveIt : Prop :=
  ∀ (ws : List (Nat × Value)) (n m : Nat) (v : Value),
    readWire (writeWire ws n v) m = if m = n then some v else readWire ws m

/-- The wires of a built design (30_encoding.md R72): every named input carries what the caller gives it; the wire of
every line carries the output of that line's instance, which has one; every wire a line uses is driven before the line
and shows it what the wires of the design carry, so that its output is the function of these. A line wired to a wire of
another width has an output only by log 9. -/
def Obligations.WiresCarryTheOutputs : Prop :=
  ∀ s : State, s.Built →
    (∀ n v, readWire s.inputs n = some v → readWire (wiresOf s) n = some v) ∧
    (∀ (n : Nat) (l : Line), s.netlist[n]? = some l →
      ∃ v, s.output n = some v ∧ ∀ m, l.target = some m → readWire (wiresOf s) m = some v) ∧
    (∀ (n : Nat) (l : Line), s.netlist[n]? = some l →
      (∀ m ∈ lineUses l, ∃ v, readWire (wiresBefore s n) m = some v ∧ readWire (wiresOf s) m = some v) ∧
      s.output n = lineOutput s (wiresOf s) l)

/-- The frame of an evaluation step: `y` shows the output of the instance asked for, the calls move on, the elaboration
state is gone (10_state.md R31), and the design, its inputs and all its wires, the caller's signals, the tables, the
callback table and the strategy are as before. The calls are the model's choice, log 17. -/
def Obligations.EvaluationStepFrame : Prop :=
  ∀ (s t : State) (n : Nat) (rest : List Nat), s.Built → s.nextCall = some (n, rest) → n < s.netlist.length →
    step s = .next t →
    t = { s with calls := rest, elaboration := none, y := t.y } ∧ s.output n = some t.y ∧ wiresOf t = wiresOf s

/-- A build with a violation never runs: while an ill-formed instance stands in the design, no step evaluates
anything, and once every STATICFOR is unrolled the step refuses; an ill-formed STATICFOR refuses as it is reached,
behind another STATICFOR in a later step (60_exceptions.md R172, 70_reset_and_hazards.md R191). The order of unrolling
and checking is the spec's decision D20 and log 8. Which violation names the refusal of a design with several, which
R176 leaves open, and that it is the step that refuses, are the model's choice, logs 8, 19 and 20. -/
def Obligations.IllFormedDesignNeverRuns : Prop :=
  (∀ (s : State) (l : Line) (v : BuildViolation), l ∈ s.netlist → isStaticForLine l = false →
    decodeLine l.words = .error v →
    (∀ t, step s = .next t → l ∈ t.netlist ∧ t.calls = s.calls ∧ t.inputs = s.inputs ∧ t.y = s.y) ∧
    (splitStaticFor s.netlist = none → ∃ v', step s = .refused (.build v'))) ∧
  (∀ (s : State) (before after : List Line) (l : Line) (v : BuildViolation),
    s.netlist = before ++ l :: after → (∀ m ∈ before, isStaticForLine m = false) → isStaticForLine l = true →
    decodeLine l.words = .error v → step s = .refused (.build v))

/-- The wiring rule of 30_encoding.md R72, of every line: a wire is driven before a line if it is a named input or the
target of an earlier line. A design with a line that uses a wire not driven before it, or whose target is, is refused by
name, at the first line with the exact name; a design without such a line is built and runs. The two refusals are log
10, and that instances are checked first log 20. -/
def Obligations.BadWiringIsRefused : Prop :=
  ∀ s : State, splitStaticFor s.netlist = none → checkInstances s.netlist = none →
    let driven := fun (before : List Line) (n : Nat) => readWire s.inputs n ≠ none ∨ ∃ m ∈ before, m.target = some n
    (∀ before l rest, s.netlist = before ++ l :: rest →
      (∃ n ∈ lineUses l, ¬ driven before n) ∨ (∃ n, l.target = some n ∧ driven before n) →
      ∃ m, step s = .refused (.undrivenWire m) ∨ step s = .refused (.multiplyDrivenWire m)) ∧
    (∀ l rest, s.netlist = l :: rest →
      (∀ n, n ∈ lineUses l → readWire s.inputs n = none → ∃ m, step s = .refused (.undrivenWire m)) ∧
      (∀ n v, (∀ m ∈ lineUses l, readWire s.inputs m ≠ none) → l.target = some n → readWire s.inputs n = some v →
        step s = .refused (.multiplyDrivenWire n))) ∧
    ((∀ before l rest, s.netlist = before ++ l :: rest →
      (∀ n ∈ lineUses l, driven before n) ∧ ∀ n, l.target = some n → ¬ driven before n) →
      s.Built ∧ ∃ t, step s = .next t)

/-- Every step keeps the inputs in canonical form, leaves no created line outside the design, and leaves no STATICFOR
to unroll once the elaboration state is gone (10_state.md R31, 44_static_for.md R153). -/
def Obligations.StepKeepsTheInvariant : Prop :=
  ∀ s t : State, s.Inv → step s = .next t → t.Inv

/-- The wires of a design are in canonical form whenever its inputs are. -/
def Obligations.WiresStayCanonical : Prop :=
  ∀ s : State, s.Inv → wiresWf (wiresOf s) = true ∧ ∀ n, wiresWf (wiresBefore s n) = true

/-- What the build fixed, no step changes: the callback table and the strategy (20_memory.md R52, 45_bitcast.md
R162), nor the caller's inputs and signals; and no run-time step changes the design or a table (20_memory.md R52) or
leaves an elaboration state where there was none (10_state.md R31). -/
def Obligations.BuildChoicesNeverChange : Prop :=
  ∀ s t : State, step s = .next t →
    t.cbtab = s.cbtab ∧ t.strategy = s.strategy ∧ t.inputs = s.inputs ∧ t.a = s.a ∧ t.b = s.b ∧ t.c = s.c ∧
    (s.Built → t.netlist = s.netlist ∧ t.tables = s.tables ∧ (s.elaboration = none → t.elaboration = none))

/-- "After a successful build every instance is usable at once and for ever" (70_reset_and_hazards.md R191): a built
design runs for ever, stays built and as it is, and its wires and the output of every instance stay what they are. What
one step is, is the model's choice, log 17. -/
def Obligations.BuiltDesignStaysBuilt : Prop :=
  ∀ (s : State) (k : Nat), s.Built →
    ∃ t, Sys2Proof.core.run k s = .next t ∧ Sys2Proof.Machine.State.Built t ∧
      Sys2Proof.Machine.State.netlist t = s.netlist ∧ wiresOf t = wiresOf s ∧
      ∀ n, Sys2Proof.Machine.State.output t n = s.output n

/-- Every instance of a built design is usable at once and for ever (70_reset_and_hazards.md R191): asked for first, or
after any calls whatever, its own earlier ones included, it gives its output. The calls are the model's choice, log
17. -/
def Obligations.EveryInstanceIsUsableAtAnyTime : Prop :=
  ∀ (s : State) (earlier : List Nat) (n : Nat) (rest : List Nat), s.Built → n < s.netlist.length →
    ∃ t, Sys2Proof.core.run (earlier.length + 1) { s with calls := earlier ++ n :: rest } = .next t ∧
      s.output n = some (Sys2Proof.Machine.State.y t) ∧ Sys2Proof.Machine.State.calls t = rest

/-- A built design evaluates every one of its lines, in order, one a step, and begins again: with no call listed, step
`n + 1` shows the output of line `n`, and after as many steps as there are lines the calls stand where they stood. One
evaluation a step is the model's choice, log 17. -/
def Obligations.BuiltDesignEvaluatesEveryLine : Prop :=
  ∀ s : State, s.Built → s.calls = [] →
    (∀ n, n < s.netlist.length →
      ∃ t, Sys2Proof.core.run (n + 1) s = .next t ∧ s.output n = some (Sys2Proof.Machine.State.y t)) ∧
    ∃ t, Sys2Proof.core.run s.netlist.length s = .next t ∧ Sys2Proof.Machine.State.calls t = [] ∧
      Sys2Proof.Machine.State.netlist t = s.netlist

/-- Evaluations may be taken in any order (20_memory.md R49): two evaluations of a built design in either order leave
the same state but for `y`, which shows the output of the one taken last. The calls and one evaluation a step are the
model's choice, log 17. -/
def Obligations.EvaluationsCommute : Prop :=
  ∀ (s : State) (n m : Nat) (rest : List Nat), s.Built → n < s.netlist.length → m < s.netlist.length →
    ∃ t u : State, Sys2Proof.core.run 2 { s with calls := n :: m :: rest } = .next t ∧
      Sys2Proof.core.run 2 { s with calls := m :: n :: rest } = .next u ∧
      t = { u with y := t.y } ∧ s.output m = some t.y ∧ s.output n = some u.y

/-- A table of masks whose range leaves 0 to `W` does not build (R150, R100, 60_exceptions.md R172): the STATICFOR is
unrolled, the invocation at a count that is negative or above `W` creates an ONES that is refused, and with it the whole
build, as 95_test_vectors.md 2.7 says of `TABLE(0, 10, i -> ONES.8 #i)`. That the refusal comes in the second step is
logs 8 and 19, its name for a negative count log 16, the callback as a term logs 6 and 29. -/
def Obligations.OversizedMaskInATableFailsTheBuild : Prop :=
  ∀ (s : State) (k : BitVec 8) (w : Width) (first last : Int) (l : Line),
    s.netlist = [l] → s.created = [] → decodeLine l.words = .ok (.staticfor k first last) →
    s.cbtab.lookup k = some (tableOf (.ones w .index)) →
    first < last → first < 0 ∨ (w.bits : Int) + 1 < last →
    (∃ t, step s = .next t ∧ (∃ m ∈ t.netlist, decodeLine m.words = .error .bv1)) ∧
    Sys2Proof.core.run 2 s = .refused (.build .bv1)

/-- What an invocation of a listed callback creates (44_static_for.md R152, R153; the encoding 30_encoding.md R61 to
R65): it keeps the value of its term and adds, behind the lines there were, those of its terms and those of each of its
line terms. A term `ONES.W #k` creates that instance, and of a decision the chosen branch alone is there. A line term
whose guard is 0 creates no line of its own; any other creates one, behind the instances its terms need, all of them
ONES without a target. That line names the operation of its `op` and `ws` with the static
parameters computed from the index, or is refused where a descriptor of it would be, and its ports have the sources
named, each in its place. The encoding is the spec's decisions D17, D18 and D20, and BV3 its decision D12. The form of a
callback is log 6, the order of the lines and those of terms log 29, how a parameter that no descriptor spells is refused
log 16, and that a parameter that is no number counts as 0 log 28. -/
def Obligations.CreatedLinesAreTheOnesNamed : Prop :=
  (∀ (cbtab : List (BitVec 8 × Callback)) (id : BitVec 8) (cb : Callback), cbtab.lookup id = some cb →
    ∀ (i : Int) (d : Data) (ls : List Line), (callbackOf cbtab id).body i ⟨.datum d, ls⟩ =
      ⟨.datum (cb.next.eval i d), ls ++ (cb.next.lines i d ++ cb.creates.flatMap (LineTerm.lines i d))⟩) ∧
  (∀ (w : Width) (x : CbTerm) (i : Int) (d : Data),
    let n := (x.eval i d).toInt
    ∃ m, (CbTerm.ones w x).lines i d = x.lines i d ++ [m] ∧ m = onesLine w n ∧
      m.a = .signal ∧ m.b = .signal ∧ m.c = .signal ∧ m.target = none ∧
      (0 ≤ n ∧ n ≤ w.bits → decodeLine m.words = .ok (.ones w n.toNat) ∧
        ∃ v : BitVec w.bits, (CbTerm.ones w x).eval i d = .word ⟨w.bits, v⟩ ∧ v.toNat = 2 ^ n.toNat - 1) ∧
      (n < 0 ∨ w.bits < n → decodeLine m.words = .error .bv1)) ∧
  (∀ (test x y : CbTerm) (i : Int) (d : Data),
    let chosen := if (test.eval i d).toInt = 0 then y else x
    (CbTerm.choose test x y).eval i d = chosen.eval i d ∧
    (CbTerm.choose test x y).lines i d = test.lines i d ++ chosen.lines i d) ∧
  (∀ (lt : LineTerm) (i : Int) (d : Data),
    let l := lt.line i d
    let w := Width.ofSelect lt.ws
    let k := (lt.k.eval i d).toInt
    let first := (lt.first.eval i d).toInt
    let last := (lt.last.eval i d).toInt
    let spells := fun (x : SourceTerm) (src : Source) =>
      (x = .signal → src = .signal) ∧
      (∀ y n, x = .wire y → y.eval i d = .int n → 0 ≤ n → src = .wire n.toNat) ∧
      (∀ y v, x = .const y → y.eval i d = .word v → src = .const v) ∧
      (∀ y n, x = .const y → y.eval i d = .int n → src = .const ⟨32, BitVec.ofInt 32 n⟩)
    ((lt.guard.eval i d).toInt = 0 → lt.lines i d = lt.guard.lines i d) ∧
    ((lt.guard.eval i d).toInt ≠ 0 → ∃ needed,
      lt.lines i d = lt.guard.lines i d ++ needed ++ [l] ∧ ∀ m ∈ needed, ∃ w n, m = onesLine w n) ∧
    spells lt.a l.a ∧ spells lt.b l.b ∧ spells lt.c l.c ∧
    (lt.target = none → l.target = none) ∧
    (∀ y n, lt.target = some y → y.eval i d = .int n → 0 ≤ n → l.target = some n.toNat) ∧
    (lt.op = 0 →
      (0 ≤ k ∧ k ≤ w.bits → decodeLine l.words = .ok (.ones w k.toNat)) ∧
      (k < 0 ∨ w.bits < k → decodeLine l.words = .error .bv1)) ∧
    (lt.op = 1 → k = 0 → decodeLine l.words = .ok (.getbit w)) ∧
    (lt.op = 2 → k = 0 → decodeLine l.words = .ok (.getbits w)) ∧
    (lt.op = 3 → k = 0 → decodeLine l.words = .ok (.isbitset w)) ∧
    (lt.op = 4 → lt.ws = 1 → k = 0 → decodeLine l.words = .ok .sext16) ∧
    (lt.op = 4 → lt.ws = 2 → k = 0 → decodeLine l.words = .ok .sext32) ∧
    (lt.op = 5 → k = 0 → decodeLine l.words = .ok (.rotr w)) ∧
    (lt.op = 6 → k = 0 → decodeLine l.words = .ok (.rotl w)) ∧
    (lt.op = 7 → lt.ws = 0 → k = 0 → decodeLine l.words = .ok .incbcd) ∧
    (lt.op = 8 → lt.ws = 0 → 0 ≤ k → k ≤ 255 → -32768 ≤ first → last ≤ 32767 →
      (first ≤ last → decodeLine l.words = .ok (.staticfor (BitVec.ofInt 8 k) first last)) ∧
      (last < first → first ≤ 32767 → -32768 ≤ last → decodeLine l.words = .error .bv3)) ∧
    (lt.op = 8 → lt.ws ≠ 0 ∨ k < 0 ∨ 255 < k ∨ first < -32768 ∨ 32767 < first ∨ last < -32768 ∨ 32767 < last →
      decodeLine l.words = .error .bv4) ∧
    (lt.op = 9 →
      (k = lt.ws.toNat → decodeLine l.words = .ok (.bitcast w w)) ∧
      (0 ≤ k → k < 4 → k ≠ lt.ws.toNat → decodeLine l.words = .error .bv2) ∧
      (k < 0 ∨ 4 ≤ k → decodeLine l.words = .error .bv4)) ∧
    (lt.op ∈ [1, 2, 3, 4, 5, 6, 7] → k ≠ 0 → decodeLine l.words = .error .bv4) ∧
    (lt.op = 4 → lt.ws ≠ 1 → lt.ws ≠ 2 → decodeLine l.words = .error .bv4) ∧
    (lt.op = 7 → lt.ws ≠ 0 → decodeLine l.words = .error .bv4) ∧
    (9 < lt.op → decodeLine l.words = .error .bv4))
end

