-- ==== Sys2Proof/Laws/Decode.lean ====
section
/-! SUPPORT. Lemmas of the encoding: the fields of a descriptor, the width select, and what a decoded instruction is. -/

namespace Sys2Proof

section Fields
variable (op : BitVec 4) (ws : BitVec 2) (k : BitVec 8)

@[simp] theorem opField_descriptor : opField (descriptor op ws k) = op := by
  apply BitVec.eq_of_getLsbD_eq
  intro i hi
  simp only [opField, descriptor, BitVec.getLsbD_extractLsb', BitVec.getLsbD_append]
  have h1 : ¬ (12 + i < 2 + (2 + 8)) := by omega
  simp [h1, hi]

@[simp] theorem wsField_descriptor : wsField (descriptor op ws k) = ws := by
  apply BitVec.eq_of_getLsbD_eq
  intro i hi
  simp only [wsField, descriptor, BitVec.getLsbD_extractLsb', BitVec.getLsbD_append]
  have h1 : 10 + i < 2 + (2 + 8) := by omega
  have h2 : ¬ (10 + i < 2 + 8) := by omega
  simp [h1, h2, hi]

@[simp] theorem zField_descriptor : zField (descriptor op ws k) = 0 := by
  apply BitVec.eq_of_getLsbD_eq
  intro i hi
  simp only [zField, descriptor, BitVec.getLsbD_extractLsb', BitVec.getLsbD_append]
  have h1 : 8 + i < 2 + (2 + 8) := by omega
  have h2 : 8 + i < 2 + 8 := by omega
  have h3 : ¬ (8 + i < 8) := by omega
  simp [h1, h2, h3]

@[simp] theorem kField_descriptor : kField (descriptor op ws k) = k := by
  apply BitVec.eq_of_getLsbD_eq
  intro i hi
  simp only [kField, descriptor, BitVec.getLsbD_extractLsb', BitVec.getLsbD_append]
  have h1 : i < 12 := by omega
  have h2 : i < 10 := by omega
  simp [h1, h2, hi]

/-- A halfword with the reserved bits 00 is the descriptor of its fields. -/
theorem descriptor_fields (d : Halfword) (h : zField d = 0) :
    descriptor (opField d) (wsField d) (kField d) = d := by
  apply BitVec.eq_of_getLsbD_eq
  intro i hi
  have hz : ∀ j, (zField d).getLsbD j = false := by simp [h]
  simp only [descriptor, opField, wsField, kField, BitVec.getLsbD_append, BitVec.getLsbD_extractLsb']
  by_cases h1 : i < 2 + (2 + 8)
  · by_cases h2 : i < 2 + 8
    · by_cases h3 : i < 8
      · simp [h1, h2, h3]
      · have := hz (i - 8)
        simp only [zField, BitVec.getLsbD_extractLsb'] at this
        have h4 : i - 8 < 2 := by omega
        have h5 : 8 + (i - 8) = i := by omega
        simp [h4, h5] at this
        simp [h1, h2, h3, this]
    · have h4 : i - (2 + 8) < 2 := by omega
      have h5 : 10 + (i - (2 + 8)) = i := by omega
      simp [h1, h2, h4, h5]
  · have h4 : i - (2 + (2 + 8)) < 4 := by omega
    have h5 : 12 + (i - (2 + (2 + 8))) = i := by omega
    simp [h1, h4, h5]

end Fields

@[simp] theorem ofSelect_select (w : Width) : Width.ofSelect w.select = w := by cases w <;> rfl

@[simp] theorem select_ofSelect (ws : BitVec 2) : (Width.ofSelect ws).select = ws := by
  revert ws; decide

/-- The reduction of `decode` at a halfword whose reserved bits are 00. -/
theorem decode_cons (d : Halfword) (rest : List Halfword) (h : zField d = 0) :
    decode (d :: rest) =
      match (opField d).toNat with
      | 0 => decodeOnes (Width.ofSelect (wsField d)) (kField d) rest
      | 1 => decodePlain (kField d) rest (.getbit (Width.ofSelect (wsField d)))
      | 2 => decodePlain (kField d) rest (.getbits (Width.ofSelect (wsField d)))
      | 3 => decodePlain (kField d) rest (.isbitset (Width.ofSelect (wsField d)))
      | 4 => decodeSext (Width.ofSelect (wsField d)) (kField d) rest
      | 5 => decodePlain (kField d) rest (.rotr (Width.ofSelect (wsField d)))
      | 6 => decodePlain (kField d) rest (.rotl (Width.ofSelect (wsField d)))
      | 7 => decodeIncbcd (Width.ofSelect (wsField d)) (kField d) rest
      | 8 => decodeStaticfor (Width.ofSelect (wsField d)) (kField d) rest
      | 9 => decodeBitcast (wsField d) (kField d) rest
      | _ => .error .bv4 := by
  unfold decode
  exact if_neg (not_not_intro h)

/-- A halfword with a reserved bit set is BV4 (30_encoding.md R67 WF1). -/
theorem decode_reserved (d : Halfword) (rest : List Halfword) (h : zField d ≠ 0) :
    decode (d :: rest) = .error .bv4 := by
  unfold decode
  exact if_pos h

section Ok
variable {k : BitVec 8} {rest r : List Halfword} {w : Width} {i j : Instr}

/-- What `decodePlain` accepts. -/
theorem decodePlain_ok (h : decodePlain k rest j = .ok (i, r)) : k = 0 ∧ i = j ∧ r = rest := by
  unfold decodePlain at h
  split at h <;> simp_all

/-- What `decodeOnes` accepts. -/
theorem decodeOnes_ok (h : decodeOnes w k rest = .ok (i, r)) :
    k.toNat ≤ w.bits ∧ i = .ones w k.toNat ∧ r = rest := by
  unfold decodeOnes at h
  split at h <;> simp_all

/-- What `decodeSext` accepts. -/
theorem decodeSext_ok (h : decodeSext w k rest = .ok (i, r)) :
    k = 0 ∧ r = rest ∧ ((w = .w16 ∧ i = .sext16) ∨ (w = .w32 ∧ i = .sext32)) := by
  cases w <;> simp only [decodeSext, reduceCtorEq] at h
  · obtain ⟨h1, h2, h3⟩ := decodePlain_ok h; simp [h1, h2, h3]
  · obtain ⟨h1, h2, h3⟩ := decodePlain_ok h; simp [h1, h2, h3]

/-- What `decodeIncbcd` accepts. -/
theorem decodeIncbcd_ok (h : decodeIncbcd w k rest = .ok (i, r)) :
    k = 0 ∧ r = rest ∧ w = .w8 ∧ i = .incbcd := by
  cases w <;> simp only [decodeIncbcd, reduceCtorEq] at h
  obtain ⟨h1, h2, h3⟩ := decodePlain_ok h; simp [h1, h2, h3]

/-- What `decodeStaticfor` accepts. -/
theorem decodeStaticfor_ok (h : decodeStaticfor w k rest = .ok (i, r)) :
    w = .w8 ∧ ∃ e1 e2, rest = e1 :: e2 :: r ∧ e1.toInt ≤ e2.toInt ∧ i = .staticfor k e1.toInt e2.toInt := by
  cases w <;> simp only [decodeStaticfor, reduceCtorEq] at h
  match rest, h with
  | e1 :: e2 :: r', h =>
    simp only at h
    split at h <;> simp_all

/-- What `decodeBitcast` accepts. -/
theorem decodeBitcast_ok {ws : BitVec 2} (h : decodeBitcast ws k rest = .ok (i, r)) :
    k.extractLsb' 2 6 = 0 ∧ k.extractLsb' 0 2 = ws ∧ r = rest ∧
      i = .bitcast (Width.ofSelect ws) (Width.ofSelect ws) := by
  unfold decodeBitcast at h
  split at h
  · simp at h
  · split at h
    · simp at h
    · simp_all

end Ok

/-- A bound read from an extension halfword fits one. -/
theorem boundFits_toInt (e : Halfword) : boundFits e.toInt = true := by
  have h1 := BitVec.le_toInt e
  have h2 := BitVec.toInt_lt (x := e)
  simp only [boundFits, Bool.and_eq_true, decide_eq_true_eq]
  omega

end Sys2Proof
end

