-- ==== Sys2Proof/Laws/Ops.lean ====
section
/-! SUPPORT. One lemma per shared operation that says what it does: the pure functions bit by bit, the unrolled loop,
and the laws of wires. -/

namespace Sys2Proof.Machine

/-! ## Pure functions -/

/-- `mask` is `2^k - 1` for a count that fits. -/
theorem mask_toNat {W k : Nat} (h : k ≤ W) : (mask W k).toNat = 2 ^ k - 1 := by
  have h1 : 2 ^ k ≤ 2 ^ W := Nat.pow_le_pow_right (by omega) h
  have h2 : 0 < 2 ^ k := Nat.two_pow_pos k
  simp only [mask, BitVec.toNat_ofNat, Nat.shiftLeft_eq, Nat.one_mul]
  exact Nat.mod_eq_of_lt (by omega)

/-- Exactly the bits below `k` of `mask` are set. -/
theorem mask_getLsbD {W k i : Nat} (h : k ≤ W) : (mask W k).getLsbD i = decide (i < k) := by
  rw [BitVec.getLsbD, mask_toNat h, Nat.testBit_two_pow_sub_one]

/-- GETBIT inside its precondition. -/
theorem getBit_inside {W : Nat} (a : BitVec W) {b : BitVec 32} (h : b.toNat < W) :
    (getBit W a b).toNat = (a.toNat / 2 ^ b.toNat) % 2 := by
  have h2 : 2 ^ 1 ≤ 2 ^ W := Nat.pow_le_pow_right (by omega) (by omega)
  simp only [getBit, h, if_true, BitVec.toNat_ofNat, Nat.shiftRight_eq_div_pow]
  exact Nat.mod_eq_of_lt (by omega)

/-- GETBIT outside its precondition. -/
theorem getBit_outside {W : Nat} (a : BitVec W) {b : BitVec 32} (h : W ≤ b.toNat) :
    getBit W a b = Config.uGetbit W a b := by
  have h' : ¬ b.toNat < W := by omega
  simp [getBit, h']

/-- GETBITS of a Field that fits. -/
theorem getBits_inside {W : Nat} (a : BitVec W) {b c : BitVec 32} (h : b.toNat + c.toNat ≤ W) :
    (getBits W a b c).toNat = (a.toNat / 2 ^ b.toNat) % 2 ^ c.toNat := by
  have h1 : 2 ^ c.toNat ≤ 2 ^ W := Nat.pow_le_pow_right (by omega) (by omega)
  have h2 : (a.toNat / 2 ^ b.toNat) % 2 ^ c.toNat < 2 ^ c.toNat := Nat.mod_lt _ (Nat.two_pow_pos _)
  simp only [getBits, h, if_true, BitVec.toNat_ofNat, Nat.shiftRight_eq_div_pow]
  exact Nat.mod_eq_of_lt (by omega)

/-- The bits of a Field that fits: right-aligned, zeros above. -/
theorem getBits_getLsbD {W : Nat} (a : BitVec W) {b c : BitVec 32} (h : b.toNat + c.toNat ≤ W) (i : Nat) :
    (getBits W a b c).getLsbD i = (decide (i < c.toNat) && a.getLsbD (b.toNat + i)) := by
  rw [BitVec.getLsbD, getBits_inside a h, Nat.testBit_mod_two_pow, Nat.testBit_div_two_pow, BitVec.getLsbD,
    Nat.add_comm i]

/-- GETBITS of a Field that does not fit. -/
theorem getBits_outside {W : Nat} (a : BitVec W) {b c : BitVec 32} (h : W < b.toNat + c.toNat) :
    getBits W a b c = Config.uGetbits W a b c := by
  have h' : ¬ b.toNat + c.toNat ≤ W := by omega
  simp [getBits, h']

/-- `sext` is below `2^O` before it is narrowed, so narrowing changes nothing. -/
theorem sext_toNat {O s : Nat} (a : BitVec O) (h2 : s ≤ O) :
    (sext O a s).toNat = if a.toNat % 2 ^ s < 2 ^ (s - 1) then a.toNat % 2 ^ s
      else a.toNat % 2 ^ s + 2 ^ O - 2 ^ s := by
  have hs : 2 ^ s ≤ 2 ^ O := Nat.pow_le_pow_right (by omega) h2
  have hu : a.toNat % 2 ^ s < 2 ^ s := Nat.mod_lt _ (Nat.two_pow_pos _)
  simp only [sext]
  split
  · rw [BitVec.toNat_ofNat]; exact Nat.mod_eq_of_lt (by omega)
  · rw [BitVec.toNat_ofNat]; exact Nat.mod_eq_of_lt (by omega)

/-- The bits of `sext`: the low `s` bits pass, the bits above copy bit `s - 1` (41_sign_extend.md R120). -/
theorem sext_getLsbD {O s i : Nat} (a : BitVec O) (h1 : 1 ≤ s) (h2 : s ≤ O) (hi : i < O) :
    (sext O a s).getLsbD i = if i < s then a.getLsbD i else a.getLsbD (s - 1) := by
  have hs : 2 ^ s ≤ 2 ^ O := Nat.pow_le_pow_right (by omega) h2
  have hu : a.toNat % 2 ^ s < 2 ^ s := Nat.mod_lt _ (Nat.two_pow_pos _)
  have htop : a.getLsbD (s - 1) = decide (2 ^ (s - 1) ≤ a.toNat % 2 ^ s) := by
    have hb : a.getLsbD (s - 1) = (a.toNat % 2 ^ s).testBit (s - 1) := by
      rw [Nat.testBit_mod_two_pow]
      simp [BitVec.getLsbD, show s - 1 < s by omega]
    rw [hb]
    obtain ⟨m, rfl⟩ : ∃ m, s = m + 1 := ⟨s - 1, by omega⟩
    simp only [Nat.add_sub_cancel]
    by_cases hm : 2 ^ m ≤ a.toNat % 2 ^ (m + 1)
    · rw [Nat.testBit_of_two_pow_le_and_two_pow_add_one_gt hm hu]
      simp [hm]
    · rw [Nat.testBit_lt_two_pow (by omega)]
      simp [hm]
  rw [BitVec.getLsbD, sext_toNat a h2]
  by_cases hlt : a.toNat % 2 ^ s < 2 ^ (s - 1)
  · rw [if_pos hlt, Nat.testBit_mod_two_pow, htop]
    by_cases his : i < s <;> simp [his, BitVec.getLsbD, hlt]
  · rw [if_neg hlt, htop]
    have hform : a.toNat % 2 ^ s + 2 ^ O - 2 ^ s = 2 ^ s * (2 ^ (O - s) - 1) + a.toNat % 2 ^ s := by
      have : 2 ^ O = 2 ^ s * 2 ^ (O - s) := by rw [← Nat.pow_add]; congr 1; omega
      rw [Nat.mul_sub, Nat.mul_one, ← this]; omega
    rw [hform, Nat.testBit_two_pow_mul_add _ hu, Nat.testBit_mod_two_pow, Nat.testBit_two_pow_sub_one]
    by_cases his : i < s
    · simp [his, BitVec.getLsbD]
    · have : i - s < O - s := by omega
      simp [his, this]; omega

/-- SEXT16 and SEXT32 inside their precondition. -/
theorem signExtend_inside {O : Nat} (a : BitVec O) {b : BitVec 32} (h1 : 1 ≤ b.toNat) (h2 : b.toNat ≤ O) :
    signExtend O a b = sext O a b.toNat := by
  simp [signExtend, h1, h2]

/-- SEXT16 and SEXT32 outside their precondition. -/
theorem signExtend_outside {O : Nat} (a : BitVec O) {b : BitVec 32} (h : b.toNat < 1 ∨ O < b.toNat) :
    signExtend O a b = Config.uSext O a b := by
  have h' : ¬ (1 ≤ b.toNat ∧ b.toNat ≤ O) := by omega
  simp [signExtend, h']

/-- The bits of a right rotation by a reduced amount (42_rotate.md R133). -/
theorem rotateRight_getLsbD {W n i : Nat} (a : BitVec W) (hn : n < W) (hi : i < W) :
    (rotateRight W a n).getLsbD i = a.getLsbD ((i + n) % W) := by
  simp only [rotateRight, BitVec.getLsbD_ofNat, hi, decide_true, Bool.true_and, Nat.testBit_or,
    Nat.testBit_shiftRight, Nat.testBit_shiftLeft]
  by_cases h : i + n < W
  · have h1 : ¬ (W - n ≤ i) := by omega
    rw [Nat.mod_eq_of_lt h]
    simp [h1, BitVec.getLsbD, Nat.add_comm]
  · have h1 : W - n ≤ i := by omega
    have h2 : (i + n) % W = i - (W - n) := by
      rw [Nat.mod_eq_sub_mod (by omega), Nat.mod_eq_of_lt (by omega)]; omega
    have h3 : a.toNat.testBit (n + i) = false := by
      have := BitVec.getLsbD_of_ge a (n + i) (by omega)
      simpa [BitVec.getLsbD] using this
    simp [h1, h2, h3, BitVec.getLsbD]

/-- The bits of a left rotation by a reduced amount (42_rotate.md R134). -/
theorem rotateLeft_getLsbD {W n i : Nat} (a : BitVec W) (hn : n < W) (hi : i < W) :
    (rotateLeft W a n).getLsbD i = a.getLsbD ((i + (W - n)) % W) := by
  simp only [rotateLeft, BitVec.getLsbD_ofNat, hi, decide_true, Bool.true_and, Nat.testBit_or,
    Nat.testBit_shiftRight, Nat.testBit_shiftLeft]
  by_cases h : i < n
  · have h1 : ¬ (n ≤ i) := by omega
    have h2 : (i + (W - n)) % W = W - n + i := by rw [Nat.mod_eq_of_lt (by omega)]; omega
    simp [h1, h2, BitVec.getLsbD]
  · have h1 : n ≤ i := by omega
    have h2 : (i + (W - n)) % W = i - n := by
      rw [Nat.mod_eq_sub_mod (by omega), Nat.mod_eq_of_lt (by omega)]; omega
    have h3 : a.toNat.testBit (W - n + i) = false := by
      have := BitVec.getLsbD_of_ge a (W - n + i) (by omega)
      simpa [BitVec.getLsbD] using this
    simp [h1, h2, h3, BitVec.getLsbD]

/-- A reduced amount is a legal shift count. -/
theorem rotateAmount_lt {W : Nat} (b : BitVec 32) (h : 0 < W) : rotateAmount W b < W := Nat.mod_lt _ h

theorem width_pos (w : Width) : 0 < w.bits := by cases w <;> decide

/-- A width divides the range of a small operand port. -/
theorem width_dvd (w : Width) : w.bits ∣ 2 ^ 32 := by cases w <;> decide

/-- INCBCD inside its precondition is the literal datapath. -/
theorem incBcd_inside {a : BitVec 8} (h1 : bcdValid a = true) (h2 : a ≠ 0x99) : incBcd a = a + bcdAddend a := by
  unfold incBcd
  rw [if_pos]
  simp only [Bool.and_eq_true, decide_eq_true_eq]
  exact ⟨h1, h2⟩

/-- INCBCD outside its precondition. -/
theorem incBcd_outside {a : BitVec 8} (h : bcdValid a = false ∨ a = 0x99) : incBcd a = Config.uBcd a := by
  unfold incBcd
  rw [if_neg]
  rcases h with h | h
  · simp [h]
  · subst h; decide

/-- Bytes below `n` are copied and the rest is zero. -/
theorem byteCopy_getLsbD {S : Nat} (a : BitVec S) (n i : Nat) (hi : i < S) :
    (byteCopy a n).getLsbD i = (decide (i < 8 * n) && a.getLsbD i) := by
  induction n with
  | zero => simp [byteCopy]
  | succ n ih =>
    simp only [byteCopy, BitVec.getLsbD_or, ih, BitVec.getLsbD_shiftLeft, BitVec.getLsbD_setWidth,
      BitVec.getLsbD_extractLsb', hi, decide_true, Bool.true_and]
    by_cases h : i < 8 * n
    · have : i < 8 * (n + 1) := by omega
      simp [h, this]
    · by_cases h2 : i < 8 * (n + 1)
      · have h3 : i - 8 * n < S := by omega
        have h4 : i - 8 * n < 8 := by omega
        have h5 : 8 * n + (i - 8 * n) = i := by omega
        simp [h, h2, h3, h4, h5]
      · have h4 : ¬ (i - 8 * n < 8) := by omega
        simp [h, h2, h4]

/-- Both strategies of BITCAST are the identity on a whole number of bytes (45_bitcast.md R162). -/
theorem bitCast_eq {S : Nat} (strategy : BitcastStrategy) (a : BitVec S) (h : 8 ∣ S) : bitCast strategy a = a := by
  cases strategy with
  | native => rfl
  | bytecopy =>
    apply BitVec.eq_of_getLsbD_eq
    intro i hi
    have : i < 8 * (S / 8) := by rwa [Nat.mul_div_cancel' h]
    simp [bitCast, byteCopy_getLsbD a _ i hi, this]

theorem eight_dvd_width (w : Width) : 8 ∣ w.bits := by cases w <;> decide

/-! ## The unrolled loop -/

@[simp] theorem indices_length (first last : Int) : (indices first last).length = (last - first).toNat := by
  simp [indices]

theorem indices_getElem? {first last : Int} {j : Nat} (h : j < (last - first).toNat) :
    (indices first last)[j]? = some (first + (j : Int)) := by
  rw [indices, List.getElem?_map, List.getElem?_range h]
  rfl

section Unroll
variable {St : Type}

/-- An empty range invokes nothing. -/
@[simp] theorem unroll_empty (cb : Int → St → St) (first : Int) (st : St) : unroll cb first first st = st := by
  simp [unroll, indices]

/-- Unrolling is the same over every representation of the elaboration state that the callbacks agree on. -/
theorem unroll_transport {St' : Type} (enc : St → St') (cb : Int → St → St) (cb' : Int → St' → St')
    (h : ∀ i st, cb' i (enc st) = enc (cb i st)) (first last : Int) (st : St) :
    unroll cb' first last (enc st) = enc (unroll cb first last st) := by
  unfold unroll
  induction indices first last generalizing st with
  | nil => rfl
  | cons i is ih => rw [List.foldl_cons, List.foldl_cons, h, ih]

end Unroll

/-- Folding an appending callback over a list of indices appends one entry per index. -/
theorem foldl_appendEntry {α : Type} (f : Int → α) (is : List Int) (st : List α) :
    is.foldl (fun st i => appendEntry f i st) st = st ++ is.map f := by
  induction is generalizing st with
  | nil => simp
  | cons i is ih => rw [List.foldl_cons, ih]; simp [appendEntry]

/-! ## Callbacks -/

/-- Appending lists of data is appending the data. -/
theorem append_ofList (xs ys : List Data) :
    (Data.ofList xs).append (Data.ofList ys) = Data.ofList (xs ++ ys) := by
  induction xs with
  | nil => cases ys <;> rfl
  | cons x xs ih => simp only [Data.ofList, Data.append, ih, List.cons_append]

/-- `appendTerm` appends the value of its term. -/
theorem appendTerm_eval (x : CbTerm) (i : Int) (ds : List Data) :
    (appendTerm x).eval i (Data.ofList ds) = Data.ofList (ds ++ [x.eval i (Data.ofList ds)]) :=
  append_ofList ds [x.eval i (Data.ofList ds)]

/-- A callback that is listed. -/
theorem callbackOf_listed {cbtab : List (BitVec 8 × Callback)} {k : BitVec 8} {cb : Callback}
    (h : cbtab.lookup k = some cb) : callbackOf cbtab k = ⟨cb.startFrom, cb.body, cb.table⟩ := by
  simp [callbackOf, h]

/-- The output of a created ONES inside R100's precondition. -/
theorem onesValue_inside (w : Width) {k : Int} (h0 : 0 ≤ k) (h1 : k ≤ w.bits) :
    onesValue w k = ⟨w.bits, mask w.bits k.toNat⟩ := by
  simp [onesValue, h0, h1]

/-- `appendTerm` creates the lines of its term. -/
@[simp] theorem appendTerm_lines (x : CbTerm) (i : Int) (st : Data) : (appendTerm x).lines i st = x.lines i st := by
  simp [appendTerm, CbTerm.lines]

@[simp] theorem seen_datum (d : Data) : (Kept.datum d).seen = d := rfl

/-- Folding an appending callback that writes no line of its own, where neither its entries nor the lines they create
depend on what it keeps: one entry and the lines of its term per index. -/
theorem foldl_appendTerm {cb : Callback} {x : CbTerm} (hn : cb.next = appendTerm x) (hc : cb.creates = [])
    (f : Int → Data) (hf : ∀ i st, x.eval i st = f i) (g : Int → List Line) (hg : ∀ i st, x.lines i st = g i)
    (is : List Int) (ds : List Data) (ls : List Line) :
    is.foldl (fun st i => cb.body i st) ⟨.datum (Data.ofList ds), ls⟩ =
      ⟨.datum (Data.ofList (ds ++ is.map f)), ls ++ is.flatMap g⟩ := by
  induction is generalizing ds ls with
  | nil => simp
  | cons i is ih =>
    rw [List.foldl_cons, Callback.body, Callback.lines, seen_datum, hn, hc, appendTerm_eval, appendTerm_lines, hf, hg,
      List.flatMap_nil, List.append_nil, ih]
    simp

/-- What STATICFOR leaves with such a callback that starts from the empty list, whatever was left before. -/
theorem unroll_appendTerm {cb : Callback} {x : CbTerm} (hn : cb.next = appendTerm x) (hc : cb.creates = [])
    (hs : cb.start = some .nil) (f : Int → Data) (hf : ∀ i st, x.eval i st = f i) (g : Int → List Line)
    (hg : ∀ i st, x.lines i st = g i) (first last : Int) (before : Kept) :
    unroll cb.body first last ⟨cb.startFrom before, []⟩ =
      ⟨.datum (Data.ofList ((indices first last).map f)), (indices first last).flatMap g⟩ := by
  have h := foldl_appendTerm hn hc f hf g hg (indices first last) [] []
  simpa [unroll, Callback.startFrom, hs, Data.ofList] using h

/-- Unrolling a callback that is not listed, read in a type St, is unrolling its function on St. -/
theorem foldl_openBody_inType {St : Type} (ofData : Data → St) (start : BitVec 8 → St → St)
    (cb : BitVec 8 → Int → St → St) (k : BitVec 8) (is : List Int) (st : ElabState) :
    (is.foldl (fun st i => openBody k i st) st).kept.inType ofData start cb =
      is.foldl (fun st i => cb k i st) (st.kept.inType ofData start cb) := by
  induction is generalizing st with
  | nil => rfl
  | cons i is ih => rw [List.foldl_cons, List.foldl_cons, ih]; rfl

/-- The static immediate of a created descriptor. -/
theorem createdImmediate_toNat (k : Int) :
    (createdImmediate k).toNat = if 0 ≤ k ∧ k ≤ 255 then k.toNat else 255 := by
  simp only [createdImmediate, immediateFits, Bool.and_eq_true, decide_eq_true_eq]
  split
  · next h => rw [BitVec.toNat_ofInt, Int.emod_eq_of_lt h.1 (by omega)]
  · rfl

/-- A created line of any operation but STATICFOR is its descriptor. -/
theorem createdWords_runtime {op : BitVec 4} (h : op ≠ 8) (ws : BitVec 2) (k first last : Int) :
    createdWords op ws k first last = [descriptor op ws (createdImmediate k)] := by
  simp only [createdWords, h, false_and, if_false]

/-- A created STATICFOR that a descriptor spells has its bounds. -/
theorem createdWords_staticfor {k first last : Int} (hk : immediateFits k = true) (h1 : boundFits first = true)
    (h2 : boundFits last = true) (ws : BitVec 2) : createdWords 8 ws k first last =
      [descriptor 8 ws (createdImmediate k), BitVec.ofInt 16 first, BitVec.ofInt 16 last] := by
  simp [createdWords, hk, h1, h2]

/-- A created STATICFOR that no descriptor spells is without bounds. -/
theorem createdWords_unspelled {k first last : Int}
    (h : ¬ (immediateFits k = true ∧ boundFits first = true ∧ boundFits last = true)) (ws : BitVec 2) :
    createdWords 8 ws k first last = [descriptor 8 ws (createdImmediate k)] := by
  simp only [createdWords, true_and, if_neg h]

/-- A bound that fits an extension halfword is read from it. -/
theorem toInt_ofInt_of_boundFits {x : Int} (h : boundFits x = true) : (BitVec.ofInt 16 x).toInt = x := by
  simp only [boundFits, Bool.and_eq_true, decide_eq_true_eq] at h
  rw [BitVec.toInt_ofInt]
  simp only [Int.bmod]
  omega

theorem onesLine_words_eq (w : Width) (k : Int) :
    (onesLine w k).words = [descriptor 0 w.select (createdImmediate k)] := by
  simp [onesLine, signalLine, createdWords_runtime]

/-- What a created ONES decodes to: the operation, or BV1 for a count outside 0 to `W`. -/
theorem decodeLine_onesWords (w : Width) (k : Int) :
    decodeLine [descriptor 0 w.select (createdImmediate k)] =
      if 0 ≤ k ∧ k ≤ w.bits then .ok (.ones w k.toNat) else .error .bv1 := by
  have hw : w.bits ≤ 64 := by cases w <;> decide
  have hn := createdImmediate_toNat k
  by_cases h : 0 ≤ k ∧ k ≤ w.bits
  · rw [if_pos (by omega)] at hn
    have hz : k.toNat ≤ w.bits := by omega
    simp [decodeLine, decode_cons, decodeOnes, hn, h, hz]
  · have hz : ¬ (createdImmediate k).toNat ≤ w.bits := by
      rw [hn]; split <;> omega
    simp [decodeLine, decode_cons, decodeOnes, h, hz]

/-- A created ONES inside R100's precondition. -/
theorem onesLine_decodes (w : Width) {k : Int} (h0 : 0 ≤ k) (h1 : k ≤ w.bits) :
    decodeLine (onesLine w k).words = .ok (.ones w k.toNat) := by
  rw [onesLine_words_eq, decodeLine_onesWords, if_pos ⟨h0, h1⟩]

/-- A created ONES with a count outside 0 to `W` is refused as BV1, whatever the count. -/
theorem onesLine_refused (w : Width) {k : Int} (h : k < 0 ∨ w.bits < k) :
    decodeLine (onesLine w k).words = .error .bv1 := by
  rw [onesLine_words_eq, decodeLine_onesWords, if_neg (by omega)]

/-- The line of a created ONES is no STATICFOR. -/
theorem onesLine_isStaticForLine (w : Width) (k : Int) : isStaticForLine (onesLine w k) = false := by
  simp [isStaticForLine, onesLine_words_eq]

/-- The lines that computing a term creates are all ONES instances. -/
theorem termLines_ones (x : CbTerm) (i : Int) (d : Data) : ∀ m ∈ x.lines i d, ∃ w n, m = onesLine w n := by
  induction x with
  | choose test x y h1 h2 h3 =>
    simp only [CbTerm.lines, List.mem_append]
    split
    · rintro m (h | h); exacts [h1 m h, h3 m h]
    · rintro m (h | h); exacts [h1 m h, h2 m h]
  | ones w k ih =>
    simp only [CbTerm.lines, List.mem_append, List.mem_singleton]
    rintro m (h | h)
    exacts [ih m h, ⟨_, _, h⟩]
  | index | state | const => simp [CbTerm.lines]
  | first x ih | second x ih | extern n x ih => exact ih
  | add x y h1 h2 | sub x y h1 h2 | mul x y h1 h2 | le x y h1 h2 | eq x y h1 h2 | pair x y h1 h2 | append x y h1 h2 =>
    simp only [CbTerm.lines, List.mem_append]
    rintro m (h | h)
    exacts [h1 m h, h2 m h]

/-- The lines that computing a source creates are all ONES instances. -/
theorem sourceLines_ones (x : SourceTerm) (i : Int) (d : Data) : ∀ m ∈ x.lines i d, ∃ w n, m = onesLine w n := by
  cases x with
  | signal => simp [SourceTerm.lines]
  | wire x => exact termLines_ones x i d
  | const x => exact termLines_ones x i d

/-- The lines that the parts of a line term create are all ONES instances. -/
theorem partsLines_ones (l : LineTerm) (i : Int) (d : Data) : ∀ m ∈ l.parts i d, ∃ w n, m = onesLine w n := by
  have ht : ∀ m ∈ (l.target.map (CbTerm.lines i d)).getD [], ∃ w n, m = onesLine w n := by
    cases l.target with
    | none => simp
    | some x => exact termLines_ones x i d
  have hb : ∀ m ∈ (if l.op = 8 then l.first.lines i d ++ l.last.lines i d else []), ∃ w n, m = onesLine w n := by
    split
    · simp only [List.mem_append]
      rintro m (h | h)
      exacts [termLines_ones _ i d m h, termLines_ones _ i d m h]
    · simp
  simp only [LineTerm.parts, List.mem_append]
  rintro m (((((h | h) | h) | h) | h) | h)
  exacts [termLines_ones _ i d m h, hb m h, sourceLines_ones _ i d m h, sourceLines_ones _ i d m h,
    sourceLines_ones _ i d m h, ht m h]

/-! ## Wires -/

/-- Reading after driving: the wire driven carries the value, every other wire is as before. -/
theorem readWire_writeWire (ws : List (Nat × Value)) (n m : Nat) (v : Value) :
    readWire (writeWire ws n v) m = if m = n then some v else readWire ws m := by
  have key : ∀ j k : Nat, (j == k) = decide (j = k) := fun _ _ => rfl
  induction ws with
  | nil => by_cases h : m = n <;> simp [writeWire, readWire, List.lookup, key, h]
  | cons p rest ih =>
    obtain ⟨k, u⟩ := p
    simp only [readWire] at ih
    simp only [writeWire, readWire]
    split
    · by_cases h : m = n <;> simp [List.lookup_cons, key, h]
    · split
      · next h => subst h; by_cases h : m = n <;> simp [List.lookup_cons, key, h]
      · next h1 h2 =>
        by_cases h : m = k
        · subst h; simp [Ne.symm h2]
        · simp [List.lookup_cons, key, h, ih]

/-- The wires driven after driving `n` are the old ones and `n`. -/
theorem mem_writeWire_keys (ws : List (Nat × Value)) (n m : Nat) (v : Value) :
    m ∈ (writeWire ws n v).map Prod.fst ↔ m = n ∨ m ∈ ws.map Prod.fst := by
  induction ws with
  | nil => simp [writeWire]
  | cons p rest ih =>
    obtain ⟨k, u⟩ := p
    simp only [writeWire]
    split
    · simp
    · split
      · next h => subst h; simp
      · simp only [List.map_cons, List.mem_cons, ih]; tauto

/-- The wires of a list are those that read as something. -/
theorem mem_keys (ws : List (Nat × Value)) (n : Nat) : n ∈ ws.map Prod.fst ↔ ∃ v, readWire ws n = some v := by
  unfold readWire
  induction ws with
  | nil => simp
  | cons p ps ih =>
    obtain ⟨k, u⟩ := p
    by_cases h : n = k
    · subst h; simp [List.lookup]
    · have hb : (n == k) = false := by simpa using h
      simp [List.lookup, hb, ih, h]

/-- Driving a wire keeps the canonical form. -/
theorem writeWire_wf {ws : List (Nat × Value)} (n : Nat) (v : Value) (h : wiresWf ws = true) :
    wiresWf (writeWire ws n v) = true := by
  simp only [wiresWf, decide_eq_true_eq] at h ⊢
  induction ws with
  | nil => simp [writeWire]
  | cons p rest ih =>
    obtain ⟨k, u⟩ := p
    have hk := List.pairwise_cons.mp h
    simp only [writeWire]
    split
    · next hn =>
      refine List.pairwise_cons.mpr ⟨fun q hq => ?_, h⟩
      rcases List.mem_cons.mp hq with rfl | hq
      · exact hn
      · exact Nat.lt_trans hn (hk.1 q hq)
    · split
      · next hn => subst hn; exact List.pairwise_cons.mpr ⟨hk.1, hk.2⟩
      · next h1 h2 =>
        refine List.pairwise_cons.mpr ⟨fun q hq => ?_, ih hk.2⟩
        have : q.1 ∈ (writeWire rest n v).map Prod.fst := List.mem_map_of_mem hq
        rcases (mem_writeWire_keys rest n q.1 v).mp this with h3 | h3
        · simp only; omega
        · obtain ⟨r, hr, hrq⟩ := List.mem_map.mp h3
          have := hk.1 r hr
          simp only at this ⊢; omega

/-- Driving a line's wire keeps the canonical form. -/
theorem driveTarget_wf {ws : List (Nat × Value)} (t : Option Nat) (y : Option Value) (h : wiresWf ws = true) :
    wiresWf (driveTarget t y ws) = true := by
  unfold driveTarget
  split
  · exact writeWire_wf _ _ h
  · exact h
  · exact h

/-- The wires of a design are in canonical form when its inputs are. -/
theorem settle_wf (s : State) (ls : List Line) {ws : List (Nat × Value)} (h : wiresWf ws = true) :
    wiresWf (settle s ls ws) = true := by
  induction ls generalizing ws with
  | nil => exact h
  | cons l ls ih => exact ih (driveTarget_wf _ _ h)

/-- The wires after two lists of lines. -/
theorem settle_append (s : State) (ls ms : List Line) (ws : List (Nat × Value)) :
    settle s (ls ++ ms) ws = settle s ms (settle s ls ws) := by
  induction ls generalizing ws with
  | nil => rfl
  | cons l ls ih => exact ih _

end Sys2Proof.Machine
end

