-- ==== Sys2Proof/Laws/PerInstr.lean ====
section
/-! SUPPORT. Statements made for every instruction, one lemma per constructor: `Shape`, the form of an encoding
(30_encoding.md R61, R69). -/

namespace Sys2Proof.Laws.Shape

/-- The descriptor of an instruction has its reserved bits 00, and as many halfwords as its `op` tells. -/
def Statement (i : Instr) : Prop :=
  ∃ d rest, encode i = d :: rest ∧ zField d = 0 ∧ (encode i).length = descriptorLength d

theorem ones (w : Width) (k : Nat) : Statement (.ones w k) :=
  ⟨_, _, rfl, by simp, by simp [encode, descriptorLength]⟩
theorem getbit (w : Width) : Statement (.getbit w) := ⟨_, _, rfl, by simp, by simp [encode, descriptorLength]⟩
theorem getbits (w : Width) : Statement (.getbits w) := ⟨_, _, rfl, by simp, by simp [encode, descriptorLength]⟩
theorem isbitset (w : Width) : Statement (.isbitset w) := ⟨_, _, rfl, by simp, by simp [encode, descriptorLength]⟩
theorem sext16 : Statement .sext16 := ⟨_, _, rfl, by simp, by simp [encode, descriptorLength]⟩
theorem sext32 : Statement .sext32 := ⟨_, _, rfl, by simp, by simp [encode, descriptorLength]⟩
theorem rotr (w : Width) : Statement (.rotr w) := ⟨_, _, rfl, by simp, by simp [encode, descriptorLength]⟩
theorem rotl (w : Width) : Statement (.rotl w) := ⟨_, _, rfl, by simp, by simp [encode, descriptorLength]⟩
theorem incbcd : Statement .incbcd := ⟨_, _, rfl, by simp, by simp [encode, descriptorLength]⟩
theorem staticfor (k : BitVec 8) (first last : Int) : Statement (.staticfor k first last) :=
  ⟨_, _, rfl, by simp, by simp [encode, descriptorLength]⟩
theorem bitcast (target source : Width) : Statement (.bitcast target source) :=
  ⟨_, _, rfl, by simp, by simp [encode, descriptorLength]⟩

end Sys2Proof.Laws.Shape
end

