-- ==== Sys2Proof/Laws/State.lean ====
section
/-! SUPPORT. One lemma per field per update of the state, and per outcome of `onNext`. -/

namespace Sys2Proof.Machine

section SetY
variable {n : Nat} (s : State) (v : BitVec n)

@[simp] theorem setY_netlist : (s.setY v).netlist = s.netlist := rfl
@[simp] theorem setY_inputs : (s.setY v).inputs = s.inputs := rfl
@[simp] theorem setY_a : (s.setY v).a = s.a := rfl
@[simp] theorem setY_b : (s.setY v).b = s.b := rfl
@[simp] theorem setY_c : (s.setY v).c = s.c := rfl
@[simp] theorem setY_calls : (s.setY v).calls = s.calls := rfl
@[simp] theorem setY_y : (s.setY v).y = ⟨n, v⟩ := rfl
@[simp] theorem setY_elaboration : (s.setY v).elaboration = s.elaboration := rfl
@[simp] theorem setY_tables : (s.setY v).tables = s.tables := rfl
@[simp] theorem setY_created : (s.setY v).created = s.created := rfl
@[simp] theorem setY_cbtab : (s.setY v).cbtab = s.cbtab := rfl
@[simp] theorem setY_strategy : (s.setY v).strategy = s.strategy := rfl
@[simp] theorem setY_aPort (w : Width) : (s.setY v).aPort w = s.aPort w := rfl

end SetY

section Elaborate
variable (s : State) (table : Bool) (st : ElabState)

@[simp] theorem elaborate_netlist : (s.elaborate table st).netlist = s.netlist := rfl
@[simp] theorem elaborate_inputs : (s.elaborate table st).inputs = s.inputs := rfl
@[simp] theorem elaborate_a : (s.elaborate table st).a = s.a := rfl
@[simp] theorem elaborate_b : (s.elaborate table st).b = s.b := rfl
@[simp] theorem elaborate_c : (s.elaborate table st).c = s.c := rfl
@[simp] theorem elaborate_calls : (s.elaborate table st).calls = s.calls := rfl
@[simp] theorem elaborate_y : (s.elaborate table st).y = s.y := rfl
@[simp] theorem elaborate_elaboration : (s.elaborate table st).elaboration = some st.kept := rfl
@[simp] theorem elaborate_tables : (s.elaborate table st).tables = if table then s.tables ++ [st.kept] else s.tables := rfl
@[simp] theorem elaborate_created : (s.elaborate table st).created = s.created ++ st.created := rfl
@[simp] theorem elaborate_cbtab : (s.elaborate table st).cbtab = s.cbtab := rfl
@[simp] theorem elaborate_strategy : (s.elaborate table st).strategy = s.strategy := rfl

end Elaborate

section Running
variable (s : State) (rest : List Nat)

@[simp] theorem running_netlist : (s.running rest).netlist = s.netlist := rfl
@[simp] theorem running_inputs : (s.running rest).inputs = s.inputs := rfl
@[simp] theorem running_a : (s.running rest).a = s.a := rfl
@[simp] theorem running_b : (s.running rest).b = s.b := rfl
@[simp] theorem running_c : (s.running rest).c = s.c := rfl
@[simp] theorem running_calls : (s.running rest).calls = rest := rfl
@[simp] theorem running_y : (s.running rest).y = s.y := rfl
@[simp] theorem running_elaboration : (s.running rest).elaboration = none := rfl
@[simp] theorem running_tables : (s.running rest).tables = s.tables := rfl
@[simp] theorem running_created : (s.running rest).created = s.created := rfl
@[simp] theorem running_cbtab : (s.running rest).cbtab = s.cbtab := rfl
@[simp] theorem running_strategy : (s.running rest).strategy = s.strategy := rfl
@[simp] theorem running_aPort (w : Width) : (s.running rest).aPort w = s.aPort w := rfl

end Running

section Present
variable (l : Line) (i : Instr) (ws : List (Nat × Value)) (s : State)

@[simp] theorem present_netlist : (present l i ws s).netlist = s.netlist := rfl
@[simp] theorem present_inputs : (present l i ws s).inputs = s.inputs := rfl
@[simp] theorem present_calls : (present l i ws s).calls = s.calls := rfl
@[simp] theorem present_y : (present l i ws s).y = s.y := rfl
@[simp] theorem present_elaboration : (present l i ws s).elaboration = s.elaboration := rfl
@[simp] theorem present_tables : (present l i ws s).tables = s.tables := rfl
@[simp] theorem present_created : (present l i ws s).created = s.created := rfl
@[simp] theorem present_cbtab : (present l i ws s).cbtab = s.cbtab := rfl
@[simp] theorem present_strategy : (present l i ws s).strategy = s.strategy := rfl

/-- A line whose ports all show the caller's signals presents the state as it is. -/
@[simp] theorem present_signalLine (words : List Halfword) : present (signalLine words) i ws s = s := by
  cases i <;> rfl

end Present

section Retire
variable (before s : State)

@[simp] theorem retire_netlist : (retire before s).netlist = s.netlist := rfl
@[simp] theorem retire_inputs : (retire before s).inputs = s.inputs := rfl
@[simp] theorem retire_a : (retire before s).a = before.a := rfl
@[simp] theorem retire_b : (retire before s).b = before.b := rfl
@[simp] theorem retire_c : (retire before s).c = before.c := rfl
@[simp] theorem retire_calls : (retire before s).calls = s.calls := rfl
@[simp] theorem retire_y : (retire before s).y = s.y := rfl
@[simp] theorem retire_elaboration : (retire before s).elaboration = s.elaboration := rfl
@[simp] theorem retire_tables : (retire before s).tables = s.tables := rfl
@[simp] theorem retire_created : (retire before s).created = s.created := rfl
@[simp] theorem retire_cbtab : (retire before s).cbtab = s.cbtab := rfl
@[simp] theorem retire_strategy : (retire before s).strategy = s.strategy := rfl

/-- An evaluation leaves its result on `y` and the state before it otherwise as it was. -/
theorem retire_setY_present (l : Line) (i : Instr) (ws : List (Nat × Value)) {n : Nat} (v : BitVec n) :
    retire s ((present l i ws s).setY v) = s.setY v := rfl

end Retire

section Place
variable (before after : List Line) (s : State)

@[simp] theorem placeCreated_netlist : (placeCreated before after s).netlist = before ++ s.created ++ after := rfl
@[simp] theorem placeCreated_inputs : (placeCreated before after s).inputs = s.inputs := rfl
@[simp] theorem placeCreated_a : (placeCreated before after s).a = s.a := rfl
@[simp] theorem placeCreated_b : (placeCreated before after s).b = s.b := rfl
@[simp] theorem placeCreated_c : (placeCreated before after s).c = s.c := rfl
@[simp] theorem placeCreated_calls : (placeCreated before after s).calls = s.calls := rfl
@[simp] theorem placeCreated_y : (placeCreated before after s).y = s.y := rfl
@[simp] theorem placeCreated_elaboration : (placeCreated before after s).elaboration = s.elaboration := rfl
@[simp] theorem placeCreated_tables : (placeCreated before after s).tables = s.tables := rfl
@[simp] theorem placeCreated_created : (placeCreated before after s).created = [] := rfl
@[simp] theorem placeCreated_cbtab : (placeCreated before after s).cbtab = s.cbtab := rfl
@[simp] theorem placeCreated_strategy : (placeCreated before after s).strategy = s.strategy := rfl

end Place

section OnNext
variable {f : State → State}

@[simp] theorem onNext_next (s : State) : onNext (.next s) f = .next (f s) := rfl
@[simp] theorem onNext_refused (r : Refusal) : onNext (.refused r) f = .refused r := rfl

/-- A next state after `onNext` comes from a next state before it. -/
theorem onNext_eq_next {o : Host.Outcome State Fault Refusal} {t : State} (h : onNext o f = .next t) :
    ∃ u, o = .next u ∧ t = f u := by
  cases o with
  | next u => exact ⟨u, rfl, by simpa [eq_comm] using h⟩
  | fault r => cases r
  | refused r => simp at h

end OnNext

end Sys2Proof.Machine
end

