-- ==== Sys2Proof/Laws/Step.lean ====
section
/-! SUPPORT. What a decoded line, the selection of a line, the build check, one operation and one step can do, each
said once. -/

namespace Sys2Proof.Machine

/-! ## Decoded lines -/

theorem decodeLine_ok {ws : List Halfword} {i : Instr} (h : decodeLine ws = .ok i) : decode ws = .ok (i, []) := by
  unfold decodeLine at h
  split at h
  · simp at h
  · next j hj => rw [hj]; simp_all
  · simp at h

/-- What a decoded head can be, by its `op` field. -/
theorem decode_ok_cases {d : Halfword} {rest r : List Halfword} {i : Instr} (h : decode (d :: rest) = .ok (i, r)) :
    zField d = 0 ∧
    ((opField d = 8 ∧ ∃ e1 e2, rest = e1 :: e2 :: r ∧ wsField d = 0 ∧ e1.toInt ≤ e2.toInt ∧
        i = .staticfor (kField d) e1.toInt e2.toInt) ∨
     (opField d ≠ 8 ∧ r = rest ∧ i.isStatic = false ∧ i.violation = none ∧ i.spellable = true)) := by
  have hz : zField d = 0 := by
    by_contra hz
    rw [decode_reserved d rest hz] at h
    simp at h
  refine ⟨hz, ?_⟩
  rw [decode_cons d rest hz] at h
  have hop : ∀ n : Nat, (opField d).toNat = n → n ≠ 8 → opField d ≠ 8 := by
    intro n hn h8 heq
    rw [heq] at hn
    exact h8 hn.symm
  split at h
  · next hn =>
    obtain ⟨h1, rfl, rfl⟩ := decodeOnes_ok h
    exact .inr ⟨hop 0 hn (by decide), rfl, rfl, by simp [Instr.violation, h1],
      by simp only [Instr.spellable, decide_eq_true_eq]; exact (kField d).isLt⟩
  · next hn => obtain ⟨-, rfl, rfl⟩ := decodePlain_ok h; exact .inr ⟨hop 1 hn (by decide), rfl, rfl, rfl, rfl⟩
  · next hn => obtain ⟨-, rfl, rfl⟩ := decodePlain_ok h; exact .inr ⟨hop 2 hn (by decide), rfl, rfl, rfl, rfl⟩
  · next hn => obtain ⟨-, rfl, rfl⟩ := decodePlain_ok h; exact .inr ⟨hop 3 hn (by decide), rfl, rfl, rfl, rfl⟩
  · next hn =>
    obtain ⟨-, rfl, ⟨-, rfl⟩ | ⟨-, rfl⟩⟩ := decodeSext_ok h <;>
      exact .inr ⟨hop 4 hn (by decide), rfl, rfl, rfl, rfl⟩
  · next hn => obtain ⟨-, rfl, rfl⟩ := decodePlain_ok h; exact .inr ⟨hop 5 hn (by decide), rfl, rfl, rfl, rfl⟩
  · next hn => obtain ⟨-, rfl, rfl⟩ := decodePlain_ok h; exact .inr ⟨hop 6 hn (by decide), rfl, rfl, rfl, rfl⟩
  · next hn =>
    obtain ⟨-, rfl, -, rfl⟩ := decodeIncbcd_ok h
    exact .inr ⟨hop 7 hn (by decide), rfl, rfl, rfl, rfl⟩
  · next hn =>
    obtain ⟨hw, e1, e2, rfl, hle, rfl⟩ := decodeStaticfor_ok h
    refine .inl ⟨BitVec.eq_of_toNat_eq hn, e1, e2, rfl, ?_, hle, rfl⟩
    rw [← select_ofSelect (wsField d), hw]
    rfl
  · next hn =>
    obtain ⟨-, -, rfl, rfl⟩ := decodeBitcast_ok h
    exact .inr ⟨hop 9 hn (by decide), rfl, rfl, by simp [Instr.violation], rfl⟩
  · simp at h

/-- A line without a STATICFOR descriptor decodes to a run-time operation inside its static precondition. -/
theorem decodeLine_runtime {l : Line} {i : Instr} (hl : isStaticForLine l = false)
    (h : decodeLine l.words = .ok i) : i.isStatic = false ∧ i.violation = none := by
  have h := decodeLine_ok h
  unfold isStaticForLine at hl
  split at hl
  · next hw => rw [hw] at h; simp [decode] at h
  · next d rest hw =>
    rw [hw] at h
    obtain ⟨-, ⟨h8, -⟩ | ⟨-, -, h1, h2, -⟩⟩ := decode_ok_cases h
    · simp [h8] at hl
    · exact ⟨h1, h2⟩

/-- A STATICFOR line that decodes is a STATICFOR with BEGIN <= END. -/
theorem decodeLine_staticfor {l : Line} {i : Instr} (hl : isStaticForLine l = true)
    (h : decodeLine l.words = .ok i) : ∃ k first last, i = .staticfor k first last ∧ first ≤ last := by
  have h := decodeLine_ok h
  unfold isStaticForLine at hl
  split at hl
  · simp at hl
  · next d rest hw =>
    rw [hw] at h
    obtain ⟨-, ⟨-, e1, e2, -, -, hle, rfl⟩ | ⟨h8, -⟩⟩ := decode_ok_cases h
    · exact ⟨_, _, _, rfl, hle⟩
    · exact absurd (by simpa using hl) h8

/-! ## Selection and the build check -/

/-- No STATICFOR line is left. -/
theorem splitStaticFor_none (ls : List Line) :
    splitStaticFor ls = none ↔ ∀ l ∈ ls, isStaticForLine l = false := by
  induction ls with
  | nil => simp [splitStaticFor]
  | cons l ls ih =>
    simp only [splitStaticFor, List.forall_mem_cons]
    by_cases h : isStaticForLine l = true
    · simp [h]
    · simp only [h, Bool.false_eq_true, if_false, true_and]
      rw [← ih]
      cases hs : splitStaticFor ls with
      | none => simp
      | some p => obtain ⟨x, y, z⟩ := p; simp

/-- The selected line is the first STATICFOR line. -/
theorem splitStaticFor_some {ls before after : List Line} {l : Line}
    (h : splitStaticFor ls = some (before, l, after)) :
    ls = before ++ l :: after ∧ isStaticForLine l = true ∧ ∀ m ∈ before, isStaticForLine m = false := by
  induction ls generalizing before with
  | nil => simp [splitStaticFor] at h
  | cons m ls ih =>
    simp only [splitStaticFor] at h
    by_cases hm : isStaticForLine m = true
    · simp only [hm, if_true, Option.some.injEq, Prod.mk.injEq] at h
      obtain ⟨rfl, rfl, rfl⟩ := h
      exact ⟨rfl, hm, by simp⟩
    · simp only [hm] at h
      cases hs : splitStaticFor ls with
      | none => simp [hs] at h
      | some p =>
        obtain ⟨x, y, z⟩ := p
        simp only [hs, Bool.false_eq_true, if_false, Option.some.injEq, Prod.mk.injEq] at h
        obtain ⟨rfl, rfl, rfl⟩ := h
        obtain ⟨h1, h2, h3⟩ := ih hs
        exact ⟨by rw [h1]; rfl, h2, by simpa [hm] using h3⟩

/-- The instance check passes when every line decodes. -/
theorem checkInstances_none (ls : List Line) :
    checkInstances ls = none ↔ ∀ l ∈ ls, ∃ i, decodeLine l.words = .ok i := by
  induction ls with
  | nil => simp [checkInstances]
  | cons l ls ih =>
    simp only [checkInstances, List.forall_mem_cons]
    cases h : decodeLine l.words with
    | error v => simp
    | ok i => simp [ih]

/-- The wiring check depends only on which wires are driven. -/
theorem checkWiring_congr (ls : List Line) (d e : List Nat) (h : ∀ n, n ∈ d ↔ n ∈ e) :
    checkWiring d ls = checkWiring e ls := by
  induction ls generalizing d e with
  | nil => rfl
  | cons l ls ih =>
    have hc : ∀ n, d.contains n = e.contains n := fun n => by
      rw [Bool.eq_iff_iff]; simpa using h n
    simp only [checkWiring, hc]
    cases (lineUses l).find? fun n => !e.contains n with
    | some n => rfl
    | none =>
      cases l.target with
      | none => exact ih d e h
      | some n =>
        simp only
        split
        · rfl
        · exact ih _ _ fun m => by simp [h m]

/-- A passed wiring check of a list in two parts: the first part passes, and what the second part uses or drives is
judged with the targets of the first driven. -/
theorem checkWiring_append (ls ms : List Line) (d : List Nat) :
    checkWiring d (ls ++ ms) = none ↔
      checkWiring d ls = none ∧ checkWiring (ls.filterMap Line.target ++ d) ms = none := by
  induction ls generalizing d with
  | nil => simp [checkWiring]
  | cons l ls ih =>
    simp only [List.cons_append, checkWiring]
    cases (lineUses l).find? fun n => !d.contains n with
    | some n => simp
    | none =>
      cases ht : l.target with
      | none => simp only [List.filterMap_cons, ht]; exact ih d
      | some n =>
        simp only [List.filterMap_cons, ht]
        split
        · simp
        · rw [ih (n :: d), checkWiring_congr ms (ls.filterMap Line.target ++ n :: d)
            (n :: ls.filterMap Line.target ++ d) fun m => by simp [or_left_comm]]

/-- The parts of a passed wiring check at a first line: its wires are driven, its target is new, and the rest passes
with the target driven. -/
theorem checkWiring_cons {d : List Nat} {l : Line} {ls : List Line} (h : checkWiring d (l :: ls) = none) :
    (∀ n ∈ lineUses l, n ∈ d) ∧ (∀ n, l.target = some n → n ∉ d) ∧
    checkWiring (l.target.toList ++ d) ls = none := by
  simp only [checkWiring] at h
  split at h
  · simp at h
  · next hu =>
    refine ⟨fun n hn => by simpa using (List.find?_eq_none.mp hu) n hn, ?_⟩
    cases ht : l.target with
    | none => simp only [ht] at h; exact ⟨by simp, by simpa using h⟩
    | some n =>
      simp only [ht] at h
      split at h
      · simp at h
      · next hn =>
        refine ⟨fun m hm => ?_, by simpa using h⟩
        cases hm
        simpa using hn

/-- The wiring check passes exactly where every line uses only wires driven before it and drives a new one. -/
theorem checkWiring_none (ls : List Line) (d : List Nat) : checkWiring d ls = none ↔
    ∀ before l after, ls = before ++ l :: after →
      (∀ n ∈ lineUses l, n ∈ before.filterMap Line.target ++ d) ∧
      ∀ n, l.target = some n → n ∉ before.filterMap Line.target ++ d := by
  constructor
  · rintro h before l after rfl
    obtain ⟨h1, h2, -⟩ := checkWiring_cons ((checkWiring_append before (l :: after) d).mp h).2
    exact ⟨h1, h2⟩
  · intro h
    induction ls generalizing d with
    | nil => rfl
    | cons l ls ih =>
      obtain ⟨h1, h2⟩ := h [] l ls rfl
      have hu : (lineUses l).find? (fun n => !d.contains n) = none := by
        rw [List.find?_eq_none]
        intro n hn
        simpa using h1 n hn
      simp only [checkWiring, hu]
      cases ht : l.target with
      | none =>
        exact ih d fun before m after e => by simpa [ht] using h (l :: before) m after (by rw [e]; rfl)
      | some n =>
        have hn : d.contains n = false := by simpa using h2 n ht
        simp only [hn]
        refine ih (n :: d) fun before m after e => ?_
        have := h (l :: before) m after (by rw [e]; rfl)
        simp only [List.filterMap_cons, ht, List.cons_append, List.mem_cons, List.mem_append] at this ⊢
        refine ⟨fun k hk => by have := this.1 k hk; tauto, fun k hk => by have := this.2 k hk; tauto⟩

/-- The two refusals of the wiring check. -/
theorem checkWiring_some {ls : List Line} {d : List Nat} {r : Refusal} (h : checkWiring d ls = some r) :
    ∃ n, r = .undrivenWire n ∨ r = .multiplyDrivenWire n := by
  induction ls generalizing d with
  | nil => simp [checkWiring] at h
  | cons l ls ih =>
    simp only [checkWiring] at h
    split at h
    · exact ⟨_, .inl (by simpa [eq_comm] using h)⟩
    · split at h
      · exact ih h
      · split at h
        · exact ⟨_, .inr (by simpa [eq_comm] using h)⟩
        · exact ih h

/-- A passed build check is a passed check of the instances and of the wiring. -/
theorem buildCheck_none {s : State} : buildCheck s = none ↔
    checkInstances s.netlist = none ∧ checkWiring (s.inputs.map Prod.fst) s.netlist = none := by
  unfold buildCheck
  cases checkInstances s.netlist <;> simp

/-- Every line of a built design decodes to a run-time operation inside its static precondition. -/
theorem built_line {s : State} (h : s.Built) {l : Line} (hl : l ∈ s.netlist) :
    ∃ i, decodeLine l.words = .ok i ∧ i.isStatic = false ∧ i.violation = none := by
  obtain ⟨i, hi⟩ := (checkInstances_none _).mp (buildCheck_none.mp h.2).1 l hl
  exact ⟨i, hi, decodeLine_runtime ((splitStaticFor_none _).mp h.1 l hl) hi⟩

/-! ## One operation and one step -/

/-- A run-time operation inside its static precondition drives `y` and does nothing else. -/
theorem exec_runtime {i : Instr} (hst : i.isStatic = false) (hv : i.violation = none) (s : State) :
    ∃ n, ∃ v : BitVec n, exec i s = .next (s.setY v) := by
  cases i with
  | ones w k =>
    have hk : ¬ k > w.bits := by simpa [Instr.violation] using hv
    exact ⟨_, _, if_neg hk⟩
  | staticfor k first last => simp [Instr.isStatic] at hst
  | bitcast target source =>
    have ht : target = source := by simpa [Instr.violation] using hv
    exact ⟨_, _, if_neg (not_not_intro ht)⟩
  | getbit w => exact ⟨_, _, rfl⟩
  | getbits w => exact ⟨_, _, rfl⟩
  | isbitset w => exact ⟨_, _, rfl⟩
  | sext16 => exact ⟨_, _, rfl⟩
  | sext32 => exact ⟨_, _, rfl⟩
  | rotr w => exact ⟨_, _, rfl⟩
  | rotl w => exact ⟨_, _, rfl⟩
  | incbcd => exact ⟨_, _, rfl⟩

/-- STATICFOR with BEGIN <= END ends its elaboration and does nothing else. -/
theorem exec_staticfor {k : BitVec 8} {first last : Int} (h : first ≤ last) (s : State) :
    exec (.staticfor k first last) s = .next (s.elaborate (callbackOf s.cbtab k).table
      (unroll (callbackOf s.cbtab k).body first last ⟨(callbackOf s.cbtab k).start s.leftBefore, []⟩)) :=
  if_neg (by omega)

/-- What an operation that gives a next state has done: it drove `y`, or (STATICFOR) it ended its elaboration. -/
theorem exec_next_cases {i : Instr} {s t : State} (h : exec i s = .next t) :
    (i.isStatic = false ∧ ∃ n, ∃ v : BitVec n, t = s.setY v) ∨
    (∃ k first last, i = .staticfor k first last ∧ first ≤ last ∧
      t = s.elaborate (callbackOf s.cbtab k).table
        (unroll (callbackOf s.cbtab k).body first last ⟨(callbackOf s.cbtab k).start s.leftBefore, []⟩)) := by
  by_cases hv : i.violation = none
  · by_cases hst : i.isStatic = true
    · cases i with
      | staticfor k first last =>
        have hle : first ≤ last := by simpa [Instr.violation] using hv
        rw [exec_staticfor hle] at h
        exact .inr ⟨k, first, last, rfl, hle, by simpa [eq_comm] using h⟩
      | _ => simp [Instr.isStatic] at hst
    · obtain ⟨n, v, hx⟩ := exec_runtime (by simpa using hst) hv s
      rw [hx] at h
      exact .inl ⟨by simpa using hst, n, v, by simpa [eq_comm] using h⟩
  · cases i with
    | ones w k => simp_all [Instr.violation, exec, execOnes]
    | staticfor k first last => simp_all [Instr.violation, exec, execStaticfor]
    | bitcast target source => simp_all [Instr.violation, exec, execBitcast]
    | _ => simp [Instr.violation] at hv

/-- The first STATICFOR of a netlist is unrolled in place. -/
theorem step_unrolls {s : State} {before after : List Line} {l : Line} {i : Instr}
    (hs : splitStaticFor s.netlist = some (before, l, after)) (hi : decodeLine l.words = .ok i) :
    step s = onNext (exec i { s with netlist := before ++ after }) (placeCreated before after) := by
  simp [step, hs, hi]

/-- A built design with an evaluation to take takes it. -/
theorem step_evaluates {s : State} (h : s.Built) {n : Nat} {rest : List Nat} (hc : s.nextCall = some (n, rest)) :
    step s = evaluate (s.running rest) n := by
  simp [step, h.1, h.2, hc]

/-- An evaluation in a built design puts the instance's output on `y` and changes nothing else. -/
theorem evaluate_built {s : State} (h : s.Built) {n : Nat} {l : Line} (hl : s.netlist[n]? = some l) :
    ∃ w, ∃ v : BitVec w, s.output n = some ⟨w, v⟩ ∧ evaluate s n = .next (s.setY v) := by
  obtain ⟨i, hi, hst, hv⟩ := built_line h (List.mem_of_getElem? hl)
  obtain ⟨w, v, hx⟩ := exec_runtime hst hv (present l i (wiresBefore s n) s)
  refine ⟨w, v, ?_, ?_⟩
  · simp [State.output, hl, lineOutput, hi, result, hx]
  · simp [evaluate, hl, hi, hx, retire_setY_present]

/-- A step that gives a next state: a STATICFOR unrolled in place, one evaluation in a built design, a call of no
instance, or nothing to do. -/
theorem step_next_cases {s t : State} (h : step s = .next t) :
    (∃ before l after k first last, splitStaticFor s.netlist = some (before, l, after) ∧
      decodeLine l.words = .ok (.staticfor k first last) ∧ first ≤ last ∧
      t = placeCreated before after (State.elaborate { s with netlist := before ++ after }
        (callbackOf s.cbtab k).table (unroll (callbackOf s.cbtab k).body first last
          ⟨(callbackOf s.cbtab k).start s.leftBefore, []⟩))) ∨
    (s.Built ∧ ∃ n rest w, ∃ v : BitVec w, s.nextCall = some (n, rest) ∧ n < s.netlist.length ∧
      (s.running rest).output n = some ⟨w, v⟩ ∧ t = (s.running rest).setY v) ∨
    (s.Built ∧ ∃ n rest, s.nextCall = some (n, rest) ∧ s.netlist.length ≤ n ∧ t = s.running rest) ∨
    (s.Built ∧ s.nextCall = none ∧ t = s) := by
  cases hs : splitStaticFor s.netlist with
  | some p =>
    obtain ⟨before, l, after⟩ := p
    cases hi : decodeLine l.words with
    | error v => simp [step, hs, hi] at h
    | ok i =>
      obtain ⟨-, hl, -⟩ := splitStaticFor_some hs
      obtain ⟨k, first, last, rfl, hle⟩ := decodeLine_staticfor hl hi
      rw [step_unrolls hs hi, exec_staticfor hle] at h
      simp only [onNext_next, Host.Outcome.next.injEq] at h
      exact .inl ⟨before, l, after, k, first, last, rfl, hi, hle, h.symm⟩
  | none =>
    cases hb : buildCheck s with
    | some r => simp [step, hs, hb] at h
    | none =>
      cases hc : s.nextCall with
      | none => exact .inr (.inr (.inr ⟨⟨hs, hb⟩, rfl, by simpa [step, hs, hb, hc, eq_comm] using h⟩))
      | some p =>
        obtain ⟨n, rest⟩ := p
        rw [step_evaluates ⟨hs, hb⟩ hc] at h
        by_cases hn : n < s.netlist.length
        · obtain ⟨w, v, hv, he⟩ := evaluate_built (s := s.running rest) ⟨hs, hb⟩ (List.getElem?_eq_getElem hn)
          rw [he] at h
          exact .inr (.inl ⟨⟨hs, hb⟩, n, rest, w, v, rfl, hn, hv, by simpa [eq_comm] using h⟩)
        · have he : (s.running rest).netlist[n]? = none := List.getElem?_eq_none (by simpa using hn)
          rw [evaluate, he] at h
          exact .inr (.inr (.inl ⟨⟨hs, hb⟩, n, rest, rfl, by omega, by simpa [eq_comm] using h⟩))

/-! ## Wires and outputs depend on the design, its inputs and the caller's signals only -/

section Same
variable {s t : State}

/-- Two states have the same caller's signals and the same strategy. -/
abbrev sameSignals (s t : State) : Prop := s.a = t.a ∧ s.b = t.b ∧ s.c = t.c ∧ s.strategy = t.strategy

/-- The result of a run-time operation is a function of the signals on the ports, by one strategy. -/
theorem result_congr {i : Instr} (hst : i.isStatic = false) (h : sameSignals s t) : result i s = result i t := by
  obtain ⟨ha, hb, hc, hs⟩ := h
  have hp : ∀ w, s.aPort w = t.aPort w := fun w => by simp only [State.aPort, ha]
  cases i with
  | ones w k => by_cases hk : k > w.bits <;> simp [result, exec, execOnes, hk]
  | staticfor k first last => simp [Instr.isStatic] at hst
  | bitcast target source =>
    by_cases ht : target = source <;> simp [result, exec, execBitcast, ht, hp, hs]
  | getbit w => simp [result, exec, execGetbit, hp, hb]
  | getbits w => simp [result, exec, execGetbits, hp, hb, hc]
  | isbitset w => simp [result, exec, execIsbitset, hp, hb]
  | sext16 => simp [result, exec, execSext16, hp, hb]
  | sext32 => simp [result, exec, execSext32, hp, hb]
  | rotr w => simp [result, exec, execRotr, hp, hb]
  | rotl w => simp [result, exec, execRotl, hp, hb]
  | incbcd => simp [result, exec, execIncbcd, hp]

/-- Presenting the same sources over the same signals puts the same operands on the ports. -/
theorem present_same (l : Line) (i : Instr) (ws : List (Nat × Value)) (h : sameSignals s t) :
    sameSignals (present l i ws s) (present l i ws t) := by
  obtain ⟨ha, hb, hc, hs⟩ := h
  simp [sameSignals, present, ha, hb, hc, hs]

/-- The output of a line that holds no STATICFOR. -/
theorem lineOutput_congr {l : Line} (hl : isStaticForLine l = false) (h : sameSignals s t)
    (ws : List (Nat × Value)) : lineOutput s ws l = lineOutput t ws l := by
  simp only [lineOutput]
  cases hi : decodeLine l.words with
  | error v => rfl
  | ok i => exact result_congr (decodeLine_runtime hl hi).1 (present_same l i ws h)

/-- The wires of lines that hold no STATICFOR. -/
theorem settle_congr {ls : List Line} (hl : ∀ l ∈ ls, isStaticForLine l = false) (h : sameSignals s t)
    (ws : List (Nat × Value)) : settle s ls ws = settle t ls ws := by
  induction ls generalizing ws with
  | nil => rfl
  | cons l ls ih =>
    simp only [settle]
    rw [lineOutput_congr (hl l (by simp)) h, ih fun m hm => hl m (by simp [hm])]

variable (h : sameSignals s t) (hn : t.netlist = s.netlist) (hi : t.inputs = s.inputs)
  (hs : splitStaticFor s.netlist = none)
include h hn hi hs

/-- The wires before a line. -/
theorem wiresBefore_congr (n : Nat) : wiresBefore t n = wiresBefore s n := by
  rw [wiresBefore, wiresBefore, hn, hi]
  exact (settle_congr (fun l hl => (splitStaticFor_none _).mp hs l (List.mem_of_mem_take hl)) h _).symm

/-- All wires of a design. -/
theorem wiresOf_congr : wiresOf t = wiresOf s := by
  rw [wiresOf, wiresOf, hn, hi]
  exact (settle_congr ((splitStaticFor_none _).mp hs) h _).symm

/-- The output of every line. -/
theorem output_congr (n : Nat) : t.output n = s.output n := by
  rw [State.output, State.output, wiresBefore_congr h hn hi hs, hn]
  cases hl : s.netlist[n]? with
  | none => rfl
  | some l => exact (lineOutput_congr ((splitStaticFor_none _).mp hs l (List.mem_of_getElem? hl)) h _).symm

end Same

/-! ## What the wires carry -/

/-- The output of a line is a function of what the wires it uses carry. -/
theorem lineOutput_wires {ws vs : List (Nat × Value)} {l : Line} (s : State)
    (h : ∀ m ∈ lineUses l, readWire ws m = readWire vs m) : lineOutput s ws l = lineOutput s vs l := by
  have hsrc : ∀ src, (∀ m ∈ sourceWires src, readWire ws m = readWire vs m) →
      sourceValue src ws = sourceValue src vs := by
    intro src hs
    cases src with
    | signal => rfl
    | wire n => exact hs n (by simp [sourceWires])
    | const v => rfl
  have ha := hsrc l.a fun m hm => h m (by simp [lineUses, hm])
  have hb := hsrc l.b fun m hm => h m (by simp [lineUses, hm])
  have hc := hsrc l.c fun m hm => h m (by simp [lineUses, hm])
  simp only [lineOutput, present, valuePort, smallPort, ha, hb, hc]

/-- In a built design every line gives an output, whatever the wires carry. -/
theorem built_lineOutput {s : State} (h : s.Built) {l : Line} (hl : l ∈ s.netlist) (ws : List (Nat × Value)) :
    ∃ v, lineOutput s ws l = some v := by
  obtain ⟨i, hi, hst, hv⟩ := built_line h hl
  obtain ⟨n, v, hx⟩ := exec_runtime hst hv (present l i ws s)
  exact ⟨⟨n, v⟩, by simp [lineOutput, hi, result, hx]⟩

/-- The wires after lines that all give an output: those before, and the targets. -/
theorem settle_keys {s : State} {ls : List Line} (ho : ∀ l ∈ ls, ∀ ws, ∃ v, lineOutput s ws l = some v)
    (ws : List (Nat × Value)) (m : Nat) :
    m ∈ (settle s ls ws).map Prod.fst ↔ m ∈ ls.filterMap Line.target ++ ws.map Prod.fst := by
  induction ls generalizing ws with
  | nil => simp [settle]
  | cons l ls ih =>
    obtain ⟨v, hv⟩ := ho l (by simp) ws
    rw [settle, ih fun m hm => ho m (by simp [hm])]
    cases ht : l.target with
    | none => simp [driveTarget, ht]
    | some k =>
      have := mem_writeWire_keys ws k m v
      simp only [driveTarget, hv, List.mem_append, this, List.filterMap_cons, ht, List.mem_cons]
      tauto

/-- A wire that is driven keeps what it carries: well-wired lines drive other wires only. -/
theorem settle_keeps {s : State} {ls : List Line} (ho : ∀ l ∈ ls, ∀ ws, ∃ v, lineOutput s ws l = some v)
    {ws : List (Nat × Value)} {n : Nat} (hn : n ∈ ws.map Prod.fst) (hc : checkWiring (ws.map Prod.fst) ls = none) :
    readWire (settle s ls ws) n = readWire ws n := by
  induction ls generalizing ws with
  | nil => rfl
  | cons l ls ih =>
    have ih := @ih fun m hm => ho m (by simp [hm])
    obtain ⟨-, h2, h3⟩ := checkWiring_cons hc
    obtain ⟨v, hv⟩ := ho l (by simp) ws
    rw [settle]
    cases ht : l.target with
    | none =>
      have : driveTarget none (lineOutput s ws l) ws = ws := by cases lineOutput s ws l <;> rfl
      rw [this]
      exact ih hn (by simpa [ht] using h3)
    | some m =>
      simp only [driveTarget, hv]
      rw [ih ((mem_writeWire_keys ws m n v).mpr (.inr hn)) ?_, readWire_writeWire]
      · have : n ≠ m := fun e => h2 m ht (e ▸ hn)
        simp [this]
      · rw [← h3]
        apply checkWiring_congr
        intro k
        rw [mem_writeWire_keys, ht]
        simp

/-- What a line of a built design sees: its wires are driven before it, and the wires of the design are what it and the
lines after it make of those. -/
theorem built_wiresBefore {s : State} (h : s.Built) {n : Nat} {l : Line} (hl : s.netlist[n]? = some l) :
    wiresOf s = settle s (l :: s.netlist.drop (n + 1)) (wiresBefore s n) ∧
    checkWiring ((wiresBefore s n).map Prod.fst) (l :: s.netlist.drop (n + 1)) = none := by
  obtain ⟨hlt, rfl⟩ := List.getElem?_eq_some_iff.mp hl
  have hspl : s.netlist = s.netlist.take n ++ s.netlist[n] :: s.netlist.drop (n + 1) := by simp
  constructor
  · conv_lhs => rw [wiresOf, hspl]
    rw [settle_append]
    rfl
  · have hc := (buildCheck_none.mp h.2).2
    rw [hspl, checkWiring_append] at hc
    rw [← hc.2]
    apply checkWiring_congr
    exact settle_keys (fun m hm => built_lineOutput h (List.mem_of_mem_take hm)) s.inputs

/-! ## Runs -/

/-- A run takes its first step and goes on from there. -/
theorem run_succ {s t : State} (k : Nat) (h : step s = .next t) :
    Sys2Proof.core.run (k + 1) s = Sys2Proof.core.run k t := by
  have unfolds : ∀ (M : Host.Core) (x y : M.State), M.step x = .next y → M.run (k + 1) x = M.run k y := by
    intro M x y hxy
    simp only [Host.Core.run, hxy]
  exact unfolds Sys2Proof.core s t h

/-- A run of no step stays where it is. -/
theorem run_zero (s : State) : Sys2Proof.core.run 0 s = .next s := rfl

end Sys2Proof.Machine
end

