-- ==== Sys2Proof/Machine/Assembly.lean ====
section
/-! DEFINITION. The written forms: the source's call names (30_encoding.md R71) and this spec's assembly syntax, one
line per instance (R72). Text only; no meaning depends on it. -/

namespace Sys2Proof.Machine

/-- The source's name of an operation (R71, 00_scope.md R2). -/
def sourceName : Instr → String
  | .ones _ _ => "ones"
  | .getbit _ => "getBit"
  | .getbits _ => "getBits"
  | .isbitset _ => "isBitSet"
  | .sext16 => "signExtend16"
  | .sext32 => "signExtend32"
  | .rotr _ => "rotr"
  | .rotl _ => "rotl"
  | .incbcd => "incBCDByte"
  | .staticfor _ _ _ => "staticFor"
  | .bitcast _ _ => "bitCast"

/-- `.8`, `.16`, `.32` or `.64` (R72). -/
def widthSuffix (w : Width) : String := "." ++ toString w.bits

/-- The operation as written, with its width and static immediates (R72). -/
def operationText : Instr → String
  | .ones w k => "ONES" ++ widthSuffix w ++ " #" ++ toString k
  | .getbit w => "GETBIT" ++ widthSuffix w
  | .getbits w => "GETBITS" ++ widthSuffix w
  | .isbitset w => "ISBITSET" ++ widthSuffix w
  | .sext16 => "SEXT16"
  | .sext32 => "SEXT32"
  | .rotr w => "ROTR" ++ widthSuffix w
  | .rotl w => "ROTL" ++ widthSuffix w
  | .incbcd => "INCBCD"
  | .staticfor k first last =>
    "STATICFOR #" ++ toString first ++ ", #" ++ toString last ++ ", cb<" ++ toString k.toNat ++ ">"
  | .bitcast target _ => "BITCAST" ++ widthSuffix target

/-- A wire name, a literal, or the name of the port a caller signal is on (R72). -/
def sourceText (port : String) : Source → String
  | .signal => port
  | .wire n => "w" ++ toString n
  | .const v => toString v.bits.toNat

/-- The operands of a line, for the ports its operation has (R72). -/
def operandsText (l : Line) (i : Instr) : String :=
  String.intercalate ", "
    ((if (aWidth i).isSome then [sourceText "a" l.a] else []) ++
     (if hasB i then [sourceText "b" l.b] else []) ++
     (if hasC i then [sourceText "c" l.c] else []))

/-- One line of a netlist program, `y = OP.W a, b, c` (R72); STATICFOR and ONES have no operand port, and STATICFOR
drives no wire. -/
def lineText (l : Line) (i : Instr) : String :=
  let target := match l.target with
    | some n => "w" ++ toString n
    | none => "y"
  let operands := operandsText l i
  (if i.isStatic then "" else target ++ " = ") ++ operationText i ++
    (if operands.isEmpty then "" else " " ++ operands)

end Sys2Proof.Machine
end

