-- ==== Sys2Proof/Tests/Slice0.lean ====
section
/-! SUPPORT. Small tests, their expected values taken from 95_test_vectors.md and the rules, and for every statement
with hypotheses a witness that meets them (witness_<statement>). -/

namespace Sys2Proof.Tests
open Sys2Proof.Machine

/-- The state after reset with the caller's signals on the ports. -/
def ports (a : BitVec 64) (b c : BitVec 32) : State := { State.reset with a := a, b := b, c := c }

/-- A line without a wire of its own. -/
def bare (words : List Halfword) : Line := signalLine words

/-! ## Well-formedness: an ill-formed term for each check, refused -/

theorem test_wf_ones_oversized : (Instr.ones .w8 9).wf = false ∧ (Instr.ones .w8 8).wf = true := by decide
theorem test_wf_staticfor_reversed :
    (Instr.staticfor 0 5 0).wf = false ∧ (Instr.staticfor 0 3 3).wf = true := by decide
theorem test_wf_staticfor_unspellable :
    (Instr.staticfor 0 0 32768).wf = false ∧ (Instr.staticfor 0 (-32769) 0).wf = false ∧
    (Instr.staticfor 0 (-32768) 32767).wf = true := by decide
theorem test_wf_bitcast_mismatch :
    (Instr.bitcast .w32 .w16).wf = false ∧ (Instr.bitcast .w32 .w32).wf = true := by decide

/-! ## Decoding: words written out bit by bit from 30_encoding.md R74 -/

theorem test_decode_mask_extract :
    decodeLine [0b0000_10_00_00001100] = .ok (.ones .w32 12) ∧ decodeLine [0b0001_10_00_00000000] = .ok (.getbit .w32) ∧
    decodeLine [0b0010_00_00_00000000] = .ok (.getbits .w8) ∧
    decodeLine [0b0011_11_00_00000000] = .ok (.isbitset .w64) := by decide
theorem test_decode_sign_rotate_bcd :
    decodeLine [0b0100_01_00_00000000] = .ok .sext16 ∧ decodeLine [0b0100_10_00_00000000] = .ok .sext32 ∧
    decodeLine [0b0101_00_00_00000000] = .ok (.rotr .w8) ∧ decodeLine [0b0110_11_00_00000000] = .ok (.rotl .w64) ∧
    decodeLine [0b0111_00_00_00000000] = .ok .incbcd := by decide
theorem test_decode_staticfor_bitcast :
    decodeLine [0b1000_00_00_00000001, 0xFFFE, 0x0002] = .ok (.staticfor 1 (-2) 2) ∧
    decodeLine [0b1001_01_00_00000001] = .ok (.bitcast .w16 .w16) := by decide
/-- 95_test_vectors.md Part 3, the refusals. -/
theorem test_decode_refusals :
    decodeLine [0x0009] = .error .bv1 ∧ decodeLine [0x1801] = .error .bv4 ∧ decodeLine [0x1900] = .error .bv4 ∧
    decodeLine [0x4000] = .error .bv4 ∧ decodeLine [0x7400] = .error .bv4 ∧ decodeLine [0x9800] = .error .bv2 ∧
    decodeLine [0x9806] = .error .bv4 ∧ decodeLine [0xA000] = .error .bv4 ∧
    decodeLine [0x8400, 0, 5] = .error .bv4 ∧ decodeLine [0x8000, 5, 0] = .error .bv3 := by decide
/-- 95_test_vectors.md P3 `8001 0000 0008` and P5 `9802`, packed as the opcode table numbers bits. -/
theorem test_table_words :
    decodeTableWord 48 0x000800008001 = some (.staticfor 1 0 8) ∧ decodeTableWord 16 0x8000 = some (.staticfor 0 0 0) ∧
    decodeTableWord 16 0x9802 = some (.bitcast .w32 .w32) ∧ decodeTableWord 16 0xA000 = none := by decide

/-! ## Operations: one evaluation each (95_test_vectors.md Parts 1 and 2) -/

theorem test_ones : result (.ones .w32 12) State.reset = some ⟨32, 0xFFF⟩ ∧
    result (.ones .w64 64) State.reset = some ⟨64, 0xFFFFFFFFFFFFFFFF⟩ := by decide
theorem test_getbit : result (.getbit .w32) (ports 0xEAFFFFFE 31 0) = some ⟨32, 1⟩ ∧
    result (.getbit .w32) (ports 0xEAFFFFFE 24 0) = some ⟨32, 0⟩ := by decide
theorem test_getbits : result (.getbits .w32) (ports 0xDEADBEEF 4 16) = some ⟨32, 0xDBEE⟩ ∧
    result (.getbits .w32) (ports 0xEAFFFFFE 32 0) = some ⟨32, 0⟩ := by decide
theorem test_isbitset : result (.isbitset .w64) (ports 0x100000000 32 0) = some ⟨1, 1⟩ ∧
    result (.isbitset .w32) (ports 0xEAFFFFFE 0 0) = some ⟨1, 0⟩ := by decide
theorem test_sext16 : result .sext16 (ports 0xFF 8 0) = some ⟨16, 0xFFFF⟩ ∧
    result .sext16 (ports 0xF7FF 12 0) = some ⟨16, 0x07FF⟩ := by decide
theorem test_sext32 : result .sext32 (ports 1 1 0) = some ⟨32, 0xFFFFFFFF⟩ ∧
    result .sext32 (ports 0x00800000 24 0) = some ⟨32, 0xFF800000⟩ := by decide
theorem test_rotr : result (.rotr .w8) (ports 0x81 0xFFFFFFFF 0) = some ⟨8, 0x03⟩ ∧
    result (.rotr .w32) (ports 0x12345678 36 0) = some ⟨32, 0x81234567⟩ := by decide
theorem test_rotl : result (.rotl .w32) (ports 0xFF000000 0xFFFFFFFC 0) = some ⟨32, 0x0FF00000⟩ ∧
    result (.rotl .w64) (ports 0x0123456789ABCDEF 4 0) = some ⟨64, 0x123456789ABCDEF0⟩ := by decide
theorem test_incbcd : result .incbcd (ports 0x19 0 0) = some ⟨8, 0x20⟩ ∧
    result .incbcd (ports 0x98 0 0) = some ⟨8, 0x99⟩ := by decide
/-- A design's callback table: `collect`, P3's callback, `i -> 2 * i` of 95_test_vectors.md 2.7, and one that carries
on from what was left before. -/
def callbacks : List (BitVec 8 × Callback) :=
  [(0, collect), (1, onesTable .w8), (2, tableOf (.mul (.const (.int 2)) .index)),
   (3, ⟨none, appendTerm .index, [], false⟩)]

/-- The elaboration state, the tables and the descriptors that a STATICFOR leaves. -/
def leaves (i : Instr) (s : State) : Option (Option Kept × List Kept × List (List Halfword)) :=
  match exec i { s with cbtab := callbacks } with
  | .next t => some (t.elaboration, t.tables, t.created.map Line.words)
  | .fault _ | .refused _ => none

theorem test_staticfor_collect : leaves (.staticfor 0 (-2) 2) State.reset =
    some (some (.datum (Data.ofList [.int (-2), .int (-1), .int 0, .int 1])), [], []) := by decide
/-- P3, its first three invocations. -/
theorem test_staticfor_mask_table : leaves (.staticfor 1 0 3) State.reset =
    some (some (.datum (Data.ofList [.word ⟨8, 0x00⟩, .word ⟨8, 0x01⟩, .word ⟨8, 0x03⟩])),
      [.datum (Data.ofList [.word ⟨8, 0x00⟩, .word ⟨8, 0x01⟩, .word ⟨8, 0x03⟩])], [[0x0000], [0x0001], [0x0002]]) := by decide
/-- `TABLE(0, 4, i -> 2 * i)` = [0, 2, 4, 6], also after another STATICFOR (log 25). -/
theorem test_table_doubles :
    leaves (.staticfor 2 0 4) { State.reset with elaboration := some (.datum (.int 7)), tables := [.datum .nil] } =
      some (some (.datum (Data.ofList [.int 0, .int 2, .int 4, .int 6])),
        [.datum .nil, .datum (Data.ofList [.int 0, .int 2, .int 4, .int 6])], []) := by decide
/-- A callback without a start state of its own carries on (log 25). -/
theorem test_staticfor_carries_on :
    leaves (.staticfor 3 5 6) { State.reset with elaboration := some (.datum (Data.ofList [.int 4])) } =
      some (some (.datum (Data.ofList [.int 4, .int 5])), [], []) := by decide
/-- The invocations of a callback that is not listed, in order; its start state is of what was left before (log 6). -/
theorem test_staticfor_open :
    (match exec (.staticfor 9 4 6) State.reset with
      | .next t => decide (t.elaboration = some (.invoked 9 5 (.invoked 9 4 (.started 9 (.datum .nil)))))
      | .fault _ | .refused _ => false) = true := by decide
/-- An INCBCD line that is created from index 3 on, its operand the output of an `ONES.8 #i`. -/
def decidedLine : LineTerm where
  guard := .le (.const (.int 3)) .index
  op := 7
  ws := 0
  k := .const (.int 0)
  first := .index
  last := .index
  a := .const (.ones .w8 .index)
  b := .signal
  c := .signal
  target := some .index
/-- A decision on the index leaves only the chosen branch (44_static_for.md R153), in the lines and in the terms. -/
theorem test_callback_decides :
    decidedLine.lines 2 .nil = [] ∧
    decidedLine.lines 3 .nil = [bare [0x0003], ⟨[0x7000], .const ⟨8, 0x07⟩, .signal, .signal, some 3⟩] ∧
    (CbTerm.choose (.eq .index (.const (.int 9))) (.const .nil) (.ones .w8 .index)).lines 9 .nil = [] ∧
    (CbTerm.choose (.eq .index (.const (.int 9))) (.const .nil) (.ones .w8 .index)).lines 8 .nil = [bare [0x0008]] := by
  decide
/-- Descriptors that a callback cannot spell are refused by name (log 16). -/
theorem test_created_unspellable :
    decodeLine (onesLine .w64 256).words = .error .bv1 ∧ decodeLine (onesLine .w64 (-1)).words = .error .bv1 ∧
    decodeLine (createdWords 8 0 0 0 32768) = .error .bv4 ∧
    decodeLine (createdWords 8 0 256 0 1) = .error .bv4 ∧ decodeLine (createdWords 1 2 1 0 0) = .error .bv4 ∧
    decodeLine (createdWords 8 0 7 (-1) 1) = .ok (.staticfor 7 (-1) 1) := by decide
theorem test_bitcast : result (.bitcast .w32 .w32) (ports 0x3F800000 0 0) = some ⟨32, 0x3F800000⟩ ∧
    result (.bitcast .w64 .w64) { ports 0x3FF0000000000001 0 0 with strategy := .bytecopy } =
      some ⟨64, 0x3FF0000000000001⟩ := by decide

/-! ## The step -/

/-- P1 of 95_test_vectors.md Part 4 with `w` on wire 0. -/
def p1 : State := { State.reset with
  netlist := [⟨[0x2800], .wire 0, .const ⟨32, 28⟩, .const ⟨32, 4⟩, some 1⟩,
    ⟨[0x2800], .wire 0, .const ⟨32, 0⟩, .const ⟨32, 24⟩, some 2⟩,
    ⟨[0x4800], .wire 2, .const ⟨32, 24⟩, .signal, some 3⟩,
    ⟨[0x3800], .wire 0, .const ⟨32, 24⟩, .signal, some 4⟩]
  inputs := [(0, ⟨32, 0xEAFFFFFE⟩)] }

/-- The end state of P1. -/
theorem test_p1_end_state : wiresOf p1 =
    [(0, ⟨32, 0xEAFFFFFE⟩), (1, ⟨32, 0xE⟩), (2, ⟨32, 0x00FFFFFE⟩), (3, ⟨32, 0xFFFFFFFE⟩), (4, ⟨1, 0⟩)] := by decide
/-- An instance asked for out of turn gives its output, and the design stays. -/
theorem test_step_evaluates_the_call :
    (match step { p1 with calls := [2, 0] } with
      | .next t => decide (t.y = ⟨32, 0xFFFFFFFE⟩ ∧ t.netlist = p1.netlist ∧ t.calls = [0] ∧ t.elaboration = none)
      | .fault _ | .refused _ => false) = true := by decide
/-- A call of a line that is not there evaluates nothing (log 26). -/
theorem test_step_call_of_no_line :
    (match step { p1 with calls := [4, 0] } with
      | .next t => decide (t.y = p1.y ∧ t.calls = [0])
      | .fault _ | .refused _ => false) = true := by decide
/-- `TABLE(0, 10, i -> ONES.8 #i)` (95_test_vectors.md 2.7) from its invocation with `i` = 9 on is refused, and with
`i` = 8 alone it is not. -/
theorem test_oversized_mask_table :
    Sys2Proof.core.run 2 { State.reset with netlist := [bare [0x8001, 9, 10]], cbtab := callbacks } =
      .refused (.build .bv1) ∧
    (match Sys2Proof.core.run 2 { State.reset with netlist := [bare [0x8001, 8, 9]], cbtab := callbacks } with
      | .next _ => true | .fault _ | .refused _ => false) = true := ⟨rfl, rfl⟩
/-- A newly loaded design begins from the empty datum, whatever an older one left (log 12). -/
theorem test_load_begins_a_build :
    ({ State.reset with elaboration := some (.datum (.int 7)) }.withFetchWord 16 0x7000).elaboration =
      some (.datum .nil) := rfl
theorem test_text :
    operationText (.ones .w32 12) = "ONES.32 #12" ∧ operationText (.staticfor 1 0 8) = "STATICFOR #0, #8, cb<1>" ∧
    lineText ⟨[0x2800], .wire 0, .const ⟨32, 28⟩, .const ⟨32, 4⟩, some 1⟩ (.getbits .w32) =
      "w1 = GETBITS.32 w0, 28, 4" := ⟨rfl, rfl, rfl⟩

/-! ## Witnesses: the hypotheses of each statement are met, each clause at a boundary value -/

/-- A design of two lines, `w1 = ROTR.32 w0, 8` and `w2 = ROTL.32 w1, 36`. -/
def twoLines : State := { State.reset with
  netlist := [⟨[0x5800], .wire 0, .const ⟨32, 8⟩, .signal, some 1⟩, ⟨[0x6800], .wire 1, .const ⟨32, 36⟩, .signal, some 2⟩]
  inputs := [(0, ⟨32, 0x12345678⟩)] }

/-- P3's design with its callback table. -/
def maskTableDesign : State := { State.reset with
  netlist := [bare [0x8001, 0, 8]]
  cbtab := callbacks }

theorem witness_FirstFailingCheckNamesTheRefusal :
    (0x1900#16).toNat / 256 % 4 ≠ 0 ∧ ((0xA000#16).toNat / 256 % 4 = 0 ∧ 9 < (0xA000#16).toNat / 4096) ∧
    ((0x0008#16).toNat / 4096 = 0 ∧ (0x0008#16).toNat % 256 ≤ 8 * 2 ^ ((0x0008#16).toNat / 1024 % 4)) ∧
    (8 * 2 ^ ((0x0009#16).toNat / 1024 % 4) < (0x0009#16).toNat % 256) ∧
    ((0x6801#16).toNat / 4096 ∈ [1, 2, 3, 5, 6] ∧ (0x6801#16).toNat % 256 ≠ 0) ∧
    ((0x1000#16).toNat / 4096 = 1 ∧ (0x1000#16).toNat % 256 = 0) ∧
    ((0x4C00#16).toNat / 4096 = 4 ∧ (0x4C00#16).toNat / 1024 % 4 ≠ 1 ∧ (0x4C00#16).toNat / 1024 % 4 ≠ 2) ∧
    ((0x4400#16).toNat / 1024 % 4 = 1) ∧ ((0x4800#16).toNat / 1024 % 4 = 2) ∧
    ((0x7400#16).toNat / 4096 = 7 ∧ (0x7400#16).toNat / 1024 % 4 ≠ 0) ∧ ((0x7000#16).toNat / 1024 % 4 = 0) ∧
    ((0x8400#16).toNat / 4096 = 8 ∧ (0x8400#16).toNat / 1024 % 4 ≠ 0) ∧
    ((0x8000#16).toNat / 1024 % 4 = 0 ∧ (0x0000#16).toInt < (0x0001#16).toInt ∧ (0x0003#16).toInt ≤ (0x0003#16).toInt) ∧
    ((0x9804#16).toNat / 4096 = 9 ∧ (0x9804#16).toNat % 256 / 4 ≠ 0) ∧
    ((0x9801#16).toNat % 256 / 4 = 0 ∧ (0x9801#16).toNat % 256 % 4 ≠ (0x9801#16).toNat / 1024 % 4) ∧
    ((0x9802#16).toNat % 256 % 4 = (0x9802#16).toNat / 1024 % 4) := by decide
theorem witness_OpcodeTableAgreesWithTheDecoder :
    (opcodeTable.filter fun r => r.hits 0x9C03).map TableRow.mnemonic = ["BITCAST"] ∧
    decode [0x9C03, 0, 0] = .ok (.bitcast .w64 .w64, [0, 0]) := by decide
theorem witness_DescriptorLengthIsToldByOp :
    decode [0x8000, 0, 0, 0x7000] = .ok (.staticfor 0 0 0, [0x7000]) ∧
    decode [0x7000, 0x8000] = .ok (.incbcd, [0x8000]) := by decide
theorem witness_DecodeOfEncodeIsTheInstruction :
    (Instr.ones .w64 64).wf = true ∧ (Instr.staticfor 255 (-32768) 32767).wf = true ∧
    (Instr.bitcast .w8 .w8).wf = true := by decide
theorem witness_EncodeOfDecodeIsTheWords :
    decode [0x0C40, 0x1234] = .ok (.ones .w64 64, [0x1234]) ∧
    decode [0x80FF, 0x8000, 0x7FFF] = .ok (.staticfor 255 (-32768) 32767, []) := by decide
theorem witness_OnesGivesTheLowMask : (8 ≤ Width.w8.bits) ∧ (Width.w8.bits < 9 ∧ 9 < 256) := by decide
theorem witness_MaskHasCountOneBits : 0 ≤ Width.w8.bits ∧ 64 ≤ Width.w64.bits := by decide
theorem witness_GetbitGivesTheBit :
    (ports 0x80 7 0).b.toNat < Width.w8.bits ∧ Width.w8.bits ≤ (ports 0x80 8 0).b.toNat := by decide
theorem witness_GetbitsGivesTheField :
    (ports 0xA5 8 0).b.toNat + (ports 0xA5 8 0).c.toNat ≤ Width.w8.bits ∧
    Width.w8.bits < (ports 0xA5 8 1).b.toNat + (ports 0xA5 8 1).c.toNat := by decide
theorem witness_GetbitsEdgesOfTheField :
    ((ports 0 8 0).c.toNat = 0 ∧ (ports 0 8 0).b.toNat ≤ Width.w8.bits) ∧
    ((ports 0 0 8).c.toNat = Width.w8.bits ∧ (ports 0 0 8).b.toNat + (ports 0 0 8).c.toNat ≤ Width.w8.bits) ∧
    (1 ≤ (ports 0 7 1).c.toNat ∧ (ports 0 7 1).b.toNat + (ports 0 7 1).c.toNat = Width.w8.bits) := by decide
theorem witness_IsbitsetTestsTheBit :
    (ports 0x80 0 0).b.toNat < Width.w8.bits ∧ Width.w8.bits ≤ (ports 0x80 0xFFFFFFFF 0).b.toNat := by decide
theorem witness_ExtractionOperationsAgree :
    (ports 0x80 7 1).b.toNat < Width.w8.bits ∧ (ports 0x80 7 1).b.toNat + (ports 0x80 7 1).c.toNat ≤ Width.w8.bits ∧
    Width.w8.bits < (ports 0x80 0 9).c.toNat := by decide
theorem witness_SextSixteenExtendsTheSign :
    (1 ≤ (ports 0 1 0).b.toNat ∧ (ports 0 16 0).b.toNat ≤ 16) ∧
    ((ports 0 0 0).b.toNat < 1 ∧ 16 < (ports 0 17 0).b.toNat) := by decide
theorem witness_SextThirtyTwoExtendsTheSign :
    (1 ≤ (ports 0 1 0).b.toNat ∧ (ports 0 32 0).b.toNat ≤ 32) ∧
    ((ports 0 0 0).b.toNat < 1 ∧ 32 < (ports 0 33 0).b.toNat) := by decide
theorem witness_SignExtensionIsTheShiftConstruction :
    (1 ≤ (ports 0x8000 16 0).b.toNat ∧ (ports 0x8000 16 0).b.toNat ≤ 16) ∧
    (1 ≤ (ports 1 1 0).b.toNat ∧ (ports 1 1 0).b.toNat ≤ 32) := by decide
theorem witness_SignExtensionLaws :
    (1 ≤ (16#32).toNat ∧ (16#32).toNat ≤ 16) ∧
    (0x0100#16).toNat % 2 ^ (8#32).toNat = (0x0200#16).toNat % 2 ^ (8#32).toNat ∧
    ((8#32).toNat ≤ (16#32).toNat ∧ (16#32).toNat ≤ 16) ∧
    (1 ≤ (1#32).toNat ∧ (31#32).toNat + (1#32).toNat ≤ 32) := by decide
theorem witness_RotateAmountIsReducedModuloTheWidth :
    (ports 0 36 0).b.toNat % Width.w32.bits = (4#32).toNat % Width.w32.bits := by decide
theorem witness_RotateByMultipleOfWidthIsIdentity :
    (ports 0 0 0).b.toInt % (Width.w32.bits : Int) = 0 ∧ (ports 0 32 0).b.toInt % (Width.w32.bits : Int) = 0 ∧
    (ports 0 0xFFFFFFE0 0).b.toInt % (Width.w32.bits : Int) = 0 := by decide
theorem witness_IncbcdIncrementsTheDigits :
    (((ports 0x98 0 0).aPort .w8).toNat / 16 ≤ 9 ∧ ((ports 0x98 0 0).aPort .w8).toNat % 16 ≤ 9 ∧
      ((ports 0x98 0 0).aPort .w8).toNat ≠ 0x99) ∧
    ¬ (((ports 0x9A 0 0).aPort .w8).toNat % 16 ≤ 9) ∧ ((ports 0x99 0 0).aPort .w8).toNat = 0x99 := by decide
theorem witness_IncbcdIsTheDecimalSuccessor :
    (bcdValid ((ports 0x98 0 0).aPort .w8) = true ∧ (ports 0x98 0 0).aPort .w8 ≠ 0x99 ∧
      ((ports 0x98 0 0).aPort .w8).toNat % 16 ≠ 9) ∧
    (bcdValid ((ports 0x89 0 0).aPort .w8) = true ∧ (ports 0x89 0 0).aPort .w8 ≠ 0x99 ∧
      ((ports 0x89 0 0).aPort .w8).toNat % 16 = 9) ∧ 99 ≤ 99 := by decide
theorem witness_BcdDatapathAgreesInsideTheDomain : bcdValid 0x09 = true ∧ (0x09 : BitVec 8) ≠ 0x99 := by decide
theorem witness_StaticforUnrollsTheRange :
    ((0xFFFE#16).toInt = -2 ∧ (0x0002#16).toInt = 2 ∧ (-2 : Int) ≤ 2) ∧ (3 : Int) = 3 ∧ (0 : Int) < 5 ∧
    (splitStaticFor [bare [0x0009]] = none ∧ decodeLine (bare [0x0009]).words = .error .bv1) := by decide
theorem witness_CollectGathersTheIndices :
    (0 : Int) ≤ 5 ∧ (3 : Int) ≤ 3 ∧ maskTableDesign.cbtab.lookup 0 = some collect := by decide
theorem witness_TableHoldsOneEntryPerIndex :
    ((0 : Int) ≤ 4 ∧ (3 : Int) ≤ 3) ∧
    (∀ i st, (CbTerm.mul (.const (.int 2)) .index).eval i st = .int (2 * i)) ∧
    (∀ i st, (CbTerm.mul (.const (.int 2)) .index).lines i st = []) ∧
    (∀ i st, (CbTerm.extern 0 (.ones .w8 .index)).eval i st = Config.extern 0 (.word (onesValue .w8 i))) ∧
    (∀ i st, (CbTerm.extern 0 (.ones .w8 .index)).lines i st = [onesLine .w8 i]) ∧
    maskTableDesign.cbtab.lookup 2 = some (tableOf (.mul (.const (.int 2)) .index)) :=
  ⟨by decide, fun _ _ => rfl, fun _ _ => rfl, fun _ _ => rfl, fun _ _ => rfl, by decide⟩
/-- A callback that is not listed; and an elaboration state that is a number, counted up by a callback on data. -/
theorem witness_StaticforRunsOverAnyElaborationState :
    let cbtab : List (BitVec 8 × Callback) := [(0, ⟨some (.int 0), .add .state (.const (.int 1)), [], false⟩)]
    (0 : Int) ≤ 5 ∧ maskTableDesign.cbtab.lookup 9 = none ∧ (callbackOf cbtab 0).start (.datum .nil) = .datum (.int 0) ∧
    ∀ (i n : Int) ls, (callbackOf cbtab 0).body i ⟨.datum (.int n), ls⟩ = ⟨.datum (.int (n + 1)), ls⟩ :=
  ⟨by decide, by decide, rfl, fun i n ls => congrArg (ElabState.mk _) (List.append_nil ls)⟩
theorem witness_MaskTableCreatesOneInstancePerIndex :
    (0 : Int) ≤ 0 ∧ (0 : Int) ≤ 9 ∧ (9 : Int) ≤ (Width.w8.bits : Int) + 1 ∧
    maskTableDesign.cbtab.lookup 1 = some (onesTable .w8) := by decide
theorem witness_OversizedMaskInATableFailsTheBuild :
    State.reset.created = [] ∧
    decodeLine (bare [0x8001, 9, 10]).words = .ok (.staticfor 1 9 10) ∧
    decodeLine (bare [0x8001, 0xFFFF, 0]).words = .ok (.staticfor 1 (-1) 0) ∧
    maskTableDesign.cbtab.lookup 1 = some (tableOf (.ones .w8 .index)) ∧
    ((9 : Int) < 10 ∧ (Width.w8.bits : Int) + 1 < 10) ∧ ((-1 : Int) < 0 ∧ (-1 : Int) < 0) := by decide
/-- A line term with the given parameters. -/
def lineTerm (op : BitVec 4) (ws : BitVec 2) (k first last : Int) : LineTerm where
  guard := .const (.int 1)
  op := op
  ws := ws
  k := .const (.int k)
  first := .const (.int first)
  last := .const (.int last)
  a := .wire (.const (.int 5))
  b := .const (.const (.int (-4)))
  c := .signal
  target := none
/-- Created lines against 30_encoding.md R74, a port source in each place. -/
theorem test_created_lines :
    (lineTerm 2 2 0 0 0).line 0 .nil = ⟨[0x2800], .wire 5, .const ⟨32, 0xFFFFFFFC⟩, .signal, none⟩ ∧
    ((lineTerm 8 0 1 (-2) 8).line 0 .nil).words = [0x8001, 0xFFFE, 0x0008] ∧
    decodeLine ((lineTerm 9 1 0 0 0).line 0 .nil).words = .error .bv2 := by decide
theorem witness_CreatedLinesAreTheOnesNamed :
    maskTableDesign.cbtab.lookup 2 = some (tableOf (.mul (.const (.int 2)) .index)) ∧
    ((decidedLine.guard.eval 2 .nil).toInt = 0 ∧ (decidedLine.guard.eval 3 .nil).toInt ≠ 0) ∧
    ((lineTerm 0 0 8 0 0).op = 0 ∧ (Width.ofSelect 0).bits = 8) ∧
    ((4#4) ∈ [1, 2, 3, 4, 5, 6, 7] ∧ (2#2) ≠ 0 ∧ (0#2) ≠ 1 ∧ (0#2) ≠ 2 ∧ (9#4) < 10#4) ∧
    ((lineTerm 8 0 255 (-32768) 32767).line 0 .nil).words = [0x80FF, 0x8000, 0x7FFF] ∧
    ((lineTerm 9 3 3 0 0).line 0 .nil).words = [0x9C03] := by decide
theorem witness_BitcastPassesTheBits : Width.w8 = .w8 ∧ Width.w32 ≠ .w16 := by decide
theorem witness_ByteCopyIsTheIdentity : 0 < 1 ∧ 7 < 8 := by decide
theorem witness_ViolatedPreconditionsGiveOpenValues :
    Width.w8.bits ≤ (ports 0 8 1).b.toNat ∧ Width.w8.bits < (ports 0 8 1).b.toNat + (ports 0 8 1).c.toNat ∧
    ((ports 0 0 0).b.toNat < 1 ∧ 16 < (ports 0 17 0).b.toNat) ∧ 32 < (ports 0 33 0).b.toNat ∧
    (bcdValid ((ports 0x0A 0 0).aPort .w8) = false ∧ (ports 0x99 0 0).aPort .w8 = 0x99) := by decide
theorem witness_EveryOperationCompletes :
    ((Instr.ones .w8 8).violation = none ∧ (Instr.ones .w8 8).isStatic = false) ∧
    ((Instr.staticfor 0 3 3).violation = none ∧ (Instr.staticfor 0 3 3).isStatic = true) := by decide
theorem witness_ResultWidths :
    exec (.ones .w8 8) State.reset = .next (State.reset.setY (mask 8 8)) ∧
    exec (.isbitset .w8) State.reset = .next (State.reset.setY (0#1)) ∧
    exec .sext16 (ports 0 1 0) = .next ((ports 0 1 0).setY (0#16)) ∧
    exec .sext32 (ports 0 1 0) = .next ((ports 0 1 0).setY (0#32)) ∧
    exec .incbcd State.reset = .next (State.reset.setY (1#8)) ∧
    exec (.bitcast .w8 .w8) State.reset = .next (State.reset.setY (0#8)) := ⟨rfl, rfl, rfl, rfl, rfl, rfl⟩
theorem witness_OperationsChangeOnlyTheirResult :
    (exec .incbcd State.reset = .next (State.reset.setY (1#8)) ∧ Instr.incbcd.isStatic = false) ∧
    ((exec (.staticfor 0 3 3) maskTableDesign = .next maskTableDesign) ∧ (Instr.staticfor 0 3 3).isStatic = true) :=
  ⟨⟨rfl, rfl⟩, ⟨rfl, rfl⟩⟩
theorem witness_EqualOperandsGiveEqualResults :
    (Instr.getbits .w8).isStatic = false ∧ sameOperands (.getbits .w8) (ports 0xA5 1 6) { ports 0xFA5 1 6 with y := ⟨8, 1⟩ } :=
  ⟨rfl, fun w h => by cases h; decide, fun _ => rfl, fun _ => rfl⟩
theorem witness_EvaluationsDoNotDisturbEachOther :
    Instr.incbcd.isStatic = false ∧ (Instr.rotr .w8).isStatic = false ∧
    exec .incbcd State.reset = .next (State.reset.setY (1#8)) := ⟨rfl, rfl, rfl⟩
theorem witness_StepRunsTheDecodedInstruction :
    (twoLines.Built ∧ twoLines.nextCall = some (0, [1]) ∧
      twoLines.netlist[0]?.map (fun l => decodeLine l.words) = some (.ok (.rotr .w32))) ∧
    (isStaticForLine (bare [0x8001, 0, 8]) = true ∧ isStaticForLine (bare [0x7000]) = false ∧
      decodeLine (bare [0x8001, 0, 8]).words = .ok (.staticfor 1 0 8)) := by decide
theorem witness_FetchedWordRunsNext :
    (decodeTableWord 16 0x7000 = some .incbcd ∧ Instr.incbcd.isStatic = false) ∧
    (decodeTableWord 48 0x000800008001 = some (.staticfor 1 0 8) ∧ (Instr.staticfor 1 0 8).isStatic = true) := by decide
theorem witness_StaticforStepPlacesTheCreatedLines :
    maskTableDesign.netlist = [] ++ bare [0x8001, 0, 8] :: [] ∧ isStaticForLine (bare [0x7000]) = false ∧
    decodeLine (bare [0x8001, 0, 8]).words = .ok (.staticfor 1 0 8) := by decide
theorem witness_PortsSeeTheWiredPattern :
    aWidth (.getbits .w8) = some .w8 ∧ hasB (.getbits .w8) = true ∧ hasC (.getbits .w8) = true ∧
    sourceValue (.wire 0) [(0, ⟨8, 0xA5⟩)] = some ⟨8, 0xA5⟩ ∧ sourceValue (.const ⟨32, 4⟩) [] = some ⟨32, 4⟩ := by decide
theorem witness_WiresCarryTheOutputs :
    twoLines.Built ∧ readWire twoLines.inputs 0 = some ⟨32, 0x12345678⟩ ∧
    twoLines.netlist[1]?.map Line.target = some (some 2) ∧
    twoLines.netlist[1]?.map lineUses = some [1] ∧ readWire (wiresBefore twoLines 1) 1 = some ⟨32, 0x78123456⟩ := by
  decide
theorem witness_EvaluationStepFrame :
    twoLines.Built ∧ twoLines.nextCall = some (0, [1]) ∧ 0 < twoLines.netlist.length ∧
    { twoLines with calls := [1] }.nextCall = some (1, []) ∧ 1 < twoLines.netlist.length ∧
    (match step twoLines with | .next _ => true | .fault _ | .refused _ => false) = true := by
  decide
theorem witness_IllFormedDesignNeverRuns :
    (isStaticForLine (bare [0x0009]) = false ∧ decodeLine (bare [0x0009]).words = .error .bv1 ∧
      splitStaticFor [bare [0x0009]] = none) ∧
    (step { State.reset with netlist := [bare [0x8000, 3, 3], bare [0x0009]], cbtab := callbacks } =
      .next { State.reset with netlist := [bare [0x0009]], cbtab := callbacks }) ∧
    (isStaticForLine (bare [0x8000, 5, 0]) = true ∧ decodeLine (bare [0x8000, 5, 0]).words = .error .bv3) :=
  ⟨by decide, rfl, by decide⟩
theorem witness_BadWiringIsRefused :
    (splitStaticFor [⟨[0x7000], .wire 7, .signal, .signal, some 1⟩] = none ∧
      checkInstances [⟨[0x7000], .wire 7, .signal, .signal, some 1⟩] = none ∧ readWire [] 7 = none) ∧
    (checkInstances [⟨[0x7000], .wire 0, .signal, .signal, some 0⟩] = none ∧
      readWire [(0, ⟨8, 1⟩)] 0 = some ⟨8, 1⟩) ∧
    twoLines.Built := by decide
/-- A second line that uses a wire nothing drives before it, or drives the wire of the first again. -/
theorem test_wiring_of_a_later_line :
    step { twoLines with netlist := twoLines.netlist.take 1 ++ [⟨[0x6800], .wire 2, .const ⟨32, 36⟩, .signal, some 3⟩] } =
      .refused (.undrivenWire 2) ∧
    step { twoLines with netlist := twoLines.netlist.take 1 ++ [⟨[0x6800], .wire 1, .const ⟨32, 36⟩, .signal, some 1⟩] } =
      .refused (.multiplyDrivenWire 1) := ⟨rfl, rfl⟩
theorem witness_StepKeepsTheInvariant : twoLines.Inv ∧ maskTableDesign.Inv ∧
    step State.reset = .next State.reset := ⟨by decide, by decide, rfl⟩
theorem witness_WiresStayCanonical : twoLines.Inv := by decide
theorem witness_BuildChoicesNeverChange :
    step (ports 1 2 3) = .next (ports 1 2 3) ∧ (ports 1 2 3).Built := ⟨rfl, by decide⟩
theorem witness_BuiltDesignStaysBuilt : twoLines.Built := by decide
theorem witness_EveryInstanceIsUsableAtAnyTime : twoLines.Built ∧ 0 < twoLines.netlist.length ∧
    1 < twoLines.netlist.length := by decide
theorem witness_BuiltDesignEvaluatesEveryLine :
    twoLines.Built ∧ twoLines.calls = [] ∧ 1 < twoLines.netlist.length := by decide
theorem witness_EvaluationsCommute : twoLines.Built ∧ 0 < twoLines.netlist.length ∧
    1 < twoLines.netlist.length := by decide

end Sys2Proof.Tests
end

/-! The statements of 10_state.md: the widths of results (R27), the frame of an operation (R31) and its dependence on
the operands alone (R30). -/

namespace Sys2Proof.Machine

/-! ## The result of each run-time operation, as an equation -/

section Result
variable (s : State)

@[simp] theorem result_ones (w : Width) (k : Nat) :
    result (.ones w k) s = if k ≤ w.bits then some ⟨w.bits, mask w.bits k⟩ else none := by
  by_cases hk : k ≤ w.bits
  · simp [result, exec, execOnes, hk, Nat.not_lt.mpr hk]
  · simp [result, exec, execOnes, hk, Nat.lt_of_not_le hk]

@[simp] theorem result_getbit (w : Width) :
    result (.getbit w) s = some ⟨w.bits, getBit w.bits (s.aPort w) s.b⟩ := rfl

@[simp] theorem result_getbits (w : Width) :
    result (.getbits w) s = some ⟨w.bits, getBits w.bits (s.aPort w) s.b s.c⟩ := rfl

@[simp] theorem result_isbitset (w : Width) :
    result (.isbitset w) s = some ⟨1, isBitSet w.bits (s.aPort w) s.b⟩ := rfl

@[simp] theorem result_sext16 : result .sext16 s = some ⟨16, signExtend 16 (s.aPort .w16) s.b⟩ := rfl

@[simp] theorem result_sext32 : result .sext32 s = some ⟨32, signExtend 32 (s.aPort .w32) s.b⟩ := rfl

@[simp] theorem result_rotr (w : Width) :
    result (.rotr w) s = some ⟨w.bits, rotateRight w.bits (s.aPort w) (rotateAmount w.bits s.b)⟩ := rfl

@[simp] theorem result_rotl (w : Width) :
    result (.rotl w) s = some ⟨w.bits, rotateLeft w.bits (s.aPort w) (rotateAmount w.bits s.b)⟩ := rfl

@[simp] theorem result_incbcd : result .incbcd s = some ⟨8, incBcd (s.aPort .w8)⟩ := rfl

/-- No strategy stands on the right: both copy the pattern (45_bitcast.md R162). -/
@[simp] theorem result_bitcast (target source : Width) :
    result (.bitcast target source) s = if target = source then some ⟨target.bits, s.aPort target⟩ else none := by
  by_cases h : target = source
  · simp [result, exec, execBitcast, h, bitCast_eq _ _ (eight_dvd_width target)]
  · simp [result, exec, execBitcast, h]

end Result

theorem result_of_exec_next {i : Instr} {s t : State} (h : exec i s = .next t) : result i s = some t.y := by
  rw [result, h]

/-- What a run-time operation gives has its result width (10_state.md R27). -/
theorem resultWidth_of_result {i : Instr} {s : State} {v : Value} (hst : i.isStatic = false)
    (h : result i s = some v) : resultWidth i = some v.width := by
  cases i with
  | ones w k =>
    rw [result_ones] at h
    split at h <;> cases h
    rfl
  | bitcast target source =>
    rw [result_bitcast] at h
    split at h <;> cases h
    rfl
  | staticfor k first last => cases hst
  | getbit w | getbits w | isbitset w | sext16 | sext32 | rotr w | rotl w | incbcd => cases h; rfl

theorem resultWidth_of_exec_next {i : Instr} {s t : State} (hst : i.isStatic = false) (h : exec i s = .next t) :
    resultWidth i = some t.y.width :=
  resultWidth_of_result hst (result_of_exec_next h)

/-- A BITCAST that gives a next state is between equal sizes (45_bitcast.md R160). -/
theorem bitcast_sizes_eq_of_exec_next {target source : Width} {s t : State}
    (h : exec (.bitcast target source) s = .next t) : target = source := by
  by_contra hne
  simpa [hne] using result_of_exec_next h

/-! ## STATICFOR, the one static operation -/

theorem exists_staticfor_of_isStatic {i : Instr} (hst : i.isStatic = true) :
    ∃ k first last, i = .staticfor k first last := by
  cases i with
  | staticfor k first last => exact ⟨k, first, last, rfl⟩
  | _ => cases hst

/-- The end of an elaboration only adds tables and created lines behind those there were. -/
theorem elaborate_eq_append (s : State) (table : Bool) (st : ElabState) :
    s.elaborate table st =
      { s with
        elaboration := some st.kept
        tables := s.tables ++ (if table then [st.kept] else [])
        created := s.created ++ st.created } := by
  cases table <;> simp [State.elaborate]

/-! ## The obligations -/

/-- Settles O38: `Fault` has no constructor; a run-time operation drives `y` (`exec_runtime`) at its result width, and
STATICFOR with BEGIN <= END ends its elaboration (`exec_staticfor`). -/
theorem everyOperationCompletes : Obligations.EveryOperationCompletes := by
  refine ⟨fun _ => nofun, fun i s hv => ⟨fun hst => ?_, fun hst => ?_⟩⟩
  · obtain ⟨n, v, hx⟩ := exec_runtime hst hv s
    exact ⟨n, v, resultWidth_of_exec_next hst hx, hx⟩
  · obtain ⟨k, first, last, rfl⟩ := exists_staticfor_of_isStatic hst
    have hle : first ≤ last := by simpa [Instr.violation] using hv
    exact ⟨_, _, _, (exec_staticfor hle s).trans (congrArg _ (elaborate_eq_append ..))⟩

/-- Settles O39: each clause reads the operation's row of `resultWidth`. -/
theorem resultWidths : Obligations.ResultWidths := by
  intro w k s t
  have width {i : Instr} {n : Nat} (hst : i.isStatic = false) (hn : resultWidth i = some n)
      (h : exec i s = .next t) : t.y.width = n :=
    Option.some.inj ((resultWidth_of_exec_next hst h).symm.trans hn)
  refine ⟨?_, width rfl rfl, width rfl rfl, width rfl rfl, width rfl rfl, width rfl rfl, fun source h => ?_⟩
  · rintro (h | h | h | h) <;> exact width rfl rfl h
  · obtain rfl := bitcast_sizes_eq_of_exec_next h
    exact ⟨width rfl rfl h, width rfl rfl h⟩

/-- Settles O40, by the two things an operation that gives a next state can have done (`exec_next_cases`). -/
theorem operationsChangeOnlyTheirResult : Obligations.OperationsChangeOnlyTheirResult := by
  intro i s t h
  obtain ⟨hst, n, v, rfl⟩ | ⟨k, first, last, rfl, -, rfl⟩ := exec_next_cases h
  · exact ⟨fun _ => rfl, fun hst' => by simp [hst] at hst'⟩
  · refine ⟨nofun, fun _ => ⟨rfl, ?_, ?_⟩⟩ <;> rw [elaborate_eq_append] <;> exact List.prefix_append ..

/-- Settles O41: the right side of each operation's result equation reads the ports the operation has, and no other
field of the state; of BITCAST not even the strategy. -/
theorem equalOperandsGiveEqualResults : Obligations.EqualOperandsGiveEqualResults := by
  rintro i s t hst ⟨ha, hb, hc⟩
  cases i with
  | ones w k => rw [result_ones, result_ones]
  | getbit w => rw [result_getbit, result_getbit, ha w rfl, hb rfl]
  | getbits w => rw [result_getbits, result_getbits, ha w rfl, hb rfl, hc rfl]
  | isbitset w => rw [result_isbitset, result_isbitset, ha w rfl, hb rfl]
  | sext16 => rw [result_sext16, result_sext16, ha .w16 rfl, hb rfl]
  | sext32 => rw [result_sext32, result_sext32, ha .w32 rfl, hb rfl]
  | rotr w => rw [result_rotr, result_rotr, ha w rfl, hb rfl]
  | rotl w => rw [result_rotl, result_rotl, ha w rfl, hb rfl]
  | incbcd => rw [result_incbcd, result_incbcd, ha .w8 rfl]
  | staticfor k first last => cases hst
  | bitcast target source =>
    rw [result_bitcast, result_bitcast]
    split
    · next heq => rw [ha target (congrArg some heq.symm)]
    · rfl

end Sys2Proof.Machine

/-! The statements of 30_encoding.md: the width select (R62), the checks of a descriptor in their order (R67), its
length (R69), and the opcode table (R74). -/

namespace Sys2Proof

/-! ## The fields of a halfword as numbers (R61) -/

section FieldValues
variable (d : Halfword)

theorem toNat_opField : (opField d).toNat = d.toNat / 4096 := by
  simp only [opField, BitVec.extractLsb'_toNat, Nat.shiftRight_eq_div_pow]
  omega

theorem toNat_wsField : (wsField d).toNat = d.toNat / 1024 % 4 := by
  simp [wsField, BitVec.extractLsb'_toNat, Nat.shiftRight_eq_div_pow]

theorem toNat_zField : (zField d).toNat = d.toNat / 256 % 4 := by
  simp [zField, BitVec.extractLsb'_toNat, Nat.shiftRight_eq_div_pow]

theorem toNat_kField : (kField d).toNat = d.toNat % 256 := by
  simp [kField, BitVec.extractLsb'_toNat]

end FieldValues

/-- BITCAST's check on `k[1:0]` (R64), as numbers. -/
theorem extractLsb'_zero_two_eq_iff {k : BitVec 8} {ws : BitVec 2} :
    k.extractLsb' 0 2 = ws ↔ k.toNat % 4 = ws.toNat := by
  rw [← BitVec.toNat_inj, BitVec.extractLsb'_toNat, Nat.shiftRight_zero]

/-- BITCAST's check on `k[7:2]` (R64), as numbers. -/
theorem extractLsb'_two_six_eq_zero_iff {k : BitVec 8} : k.extractLsb' 2 6 = 0 ↔ k.toNat / 4 = 0 := by
  simp only [← BitVec.toNat_inj, BitVec.extractLsb'_toNat, Nat.shiftRight_eq_div_pow, BitVec.ofNat_eq_ofNat,
    BitVec.toNat_ofNat]
  omega

theorem extractLsb'_kField_eq_wsField_iff (d : Halfword) :
    (kField d).extractLsb' 0 2 = wsField d ↔ d.toNat % 4 = d.toNat / 1024 % 4 := by
  rw [extractLsb'_zero_two_eq_iff, toNat_kField, toNat_wsField]
  omega

theorem descriptorLength_eq (d : Halfword) : descriptorLength d = if d.toNat / 4096 = 8 then 3 else 1 := by
  simp only [descriptorLength, ← BitVec.toNat_inj, toNat_opField]
  rfl

theorem bits_ofSelect (ws : BitVec 2) : (Width.ofSelect ws).bits = 8 * 2 ^ ws.toNat := by
  revert ws; decide

theorem ofSelect_eq_iff {ws : BitVec 2} {w : Width} : Width.ofSelect ws = w ↔ ws = w.select :=
  ⟨fun h => h ▸ (select_ofSelect ws).symm, fun h => h ▸ ofSelect_select w⟩

/-! ## What the decoder does for each operation -/

section Arms
variable {k : BitVec 8} {w : Width} {ws : BitVec 2} {i : Instr} {rest : List Halfword}

theorem decodePlain_of_eq (hk : k = 0) : decodePlain k rest i = .ok (i, rest) := if_pos hk

theorem decodePlain_of_ne (hk : k ≠ 0) : decodePlain k rest i = .error .bv4 := if_neg hk

theorem decodeOnes_of_le (hk : k.toNat ≤ w.bits) : decodeOnes w k rest = .ok (.ones w k.toNat, rest) := if_pos hk

theorem decodeOnes_of_lt (hk : w.bits < k.toNat) : decodeOnes w k rest = .error .bv1 := if_neg (Nat.not_le.mpr hk)

theorem decodeSext_refused (h : ws ≠ 1 ∧ ws ≠ 2 ∨ k ≠ 0) :
    decodeSext (Width.ofSelect ws) k rest = .error .bv4 := by
  cases hw : Width.ofSelect ws with
  | w8 | w64 => rfl
  | w16 => exact decodePlain_of_ne (h.resolve_left fun hne => hne.1 (ofSelect_eq_iff.mp hw))
  | w32 => exact decodePlain_of_ne (h.resolve_left fun hne => hne.2 (ofSelect_eq_iff.mp hw))

theorem decodeIncbcd_refused (h : ws ≠ 0 ∨ k ≠ 0) : decodeIncbcd (Width.ofSelect ws) k rest = .error .bv4 := by
  cases hw : Width.ofSelect ws with
  | w8 => exact decodePlain_of_ne (h.resolve_left (not_not_intro (ofSelect_eq_iff.mp hw)))
  | w16 | w32 | w64 => rfl

theorem decodeStaticfor_refused (h : ws ≠ 0 ∨ rest.length < 2) :
    decodeStaticfor (Width.ofSelect ws) k rest = .error .bv4 := by
  cases hw : Width.ofSelect ws with
  | w8 =>
    match rest, h.resolve_left (not_not_intro (ofSelect_eq_iff.mp hw)) with
    | [], _ | [_], _ => rfl
  | w16 | w32 | w64 => rfl

theorem decodeStaticfor_reversed {e1 e2 : Halfword} (hws : ws = 0) (h : e2.toInt < e1.toInt) :
    decodeStaticfor (Width.ofSelect ws) k (e1 :: e2 :: rest) = .error .bv3 := by
  rw [hws]
  exact if_neg (Int.not_le.mpr h)

theorem decodeStaticfor_of_le {e1 e2 : Halfword} (hws : ws = 0) (h : e1.toInt ≤ e2.toInt) :
    decodeStaticfor (Width.ofSelect ws) k (e1 :: e2 :: rest) = .ok (.staticfor k e1.toInt e2.toInt, rest) := by
  rw [hws]
  exact if_pos h

theorem decodeBitcast_reserved (h : k.extractLsb' 2 6 ≠ 0) : decodeBitcast ws k rest = .error .bv4 := if_pos h

theorem decodeBitcast_mismatch (h0 : k.extractLsb' 2 6 = 0) (h : k.extractLsb' 0 2 ≠ ws) :
    decodeBitcast ws k rest = .error .bv2 := by
  simp [decodeBitcast, h0, h]

theorem decodeBitcast_of_eq (h0 : k.extractLsb' 2 6 = 0) (h : k.extractLsb' 0 2 = ws) :
    decodeBitcast ws k rest = .ok (.bitcast (Width.ofSelect ws) (Width.ofSelect ws), rest) := by
  simp [decodeBitcast, h0, h]

end Arms

section Dispatch
variable {d : Halfword} {rest : List Halfword} (hz : zField d = 0)
include hz

theorem decode_ones (hop : opField d = 0) :
    decode (d :: rest) = decodeOnes (Width.ofSelect (wsField d)) (kField d) rest := by
  rw [decode_cons d rest hz, hop]; rfl

theorem decode_getbit (hop : opField d = 1) :
    decode (d :: rest) = decodePlain (kField d) rest (.getbit (Width.ofSelect (wsField d))) := by
  rw [decode_cons d rest hz, hop]; rfl

theorem decode_getbits (hop : opField d = 2) :
    decode (d :: rest) = decodePlain (kField d) rest (.getbits (Width.ofSelect (wsField d))) := by
  rw [decode_cons d rest hz, hop]; rfl

theorem decode_isbitset (hop : opField d = 3) :
    decode (d :: rest) = decodePlain (kField d) rest (.isbitset (Width.ofSelect (wsField d))) := by
  rw [decode_cons d rest hz, hop]; rfl

theorem decode_sext (hop : opField d = 4) :
    decode (d :: rest) = decodeSext (Width.ofSelect (wsField d)) (kField d) rest := by
  rw [decode_cons d rest hz, hop]; rfl

theorem decode_rotr (hop : opField d = 5) :
    decode (d :: rest) = decodePlain (kField d) rest (.rotr (Width.ofSelect (wsField d))) := by
  rw [decode_cons d rest hz, hop]; rfl

theorem decode_rotl (hop : opField d = 6) :
    decode (d :: rest) = decodePlain (kField d) rest (.rotl (Width.ofSelect (wsField d))) := by
  rw [decode_cons d rest hz, hop]; rfl

theorem decode_incbcd (hop : opField d = 7) :
    decode (d :: rest) = decodeIncbcd (Width.ofSelect (wsField d)) (kField d) rest := by
  rw [decode_cons d rest hz, hop]; rfl

theorem decode_staticfor (hop : opField d = 8) :
    decode (d :: rest) = decodeStaticfor (Width.ofSelect (wsField d)) (kField d) rest := by
  rw [decode_cons d rest hz, hop]; rfl

theorem decode_bitcast (hop : opField d = 9) :
    decode (d :: rest) = decodeBitcast (wsField d) (kField d) rest := by
  rw [decode_cons d rest hz, hop]; rfl

theorem decode_unassigned (hop : 9 < (opField d).toNat) : decode (d :: rest) = .error .bv4 := by
  obtain ⟨n, hn⟩ : ∃ n, (opField d).toNat = n + 10 := ⟨_, (Nat.sub_add_cancel hop).symm⟩
  rw [decode_cons d rest hz, hn]; rfl

end Dispatch

/-! ## The descriptors that decode -/

/-- R63 to R66 as a relation: the fields `op`, `ws` and `k` of `d`, with the halfwords behind `d` as second argument,
name the instruction and leave the last argument unread. The reserved bits are not in it. -/
inductive Spells (d : Halfword) : List Halfword → Instr → List Halfword → Prop
  | ones {rest} (hop : opField d = 0) (hk : (kField d).toNat ≤ (Width.ofSelect (wsField d)).bits) :
      Spells d rest (.ones (Width.ofSelect (wsField d)) (kField d).toNat) rest
  | getbit {rest} (hop : opField d = 1) (hk : kField d = 0) :
      Spells d rest (.getbit (Width.ofSelect (wsField d))) rest
  | getbits {rest} (hop : opField d = 2) (hk : kField d = 0) :
      Spells d rest (.getbits (Width.ofSelect (wsField d))) rest
  | isbitset {rest} (hop : opField d = 3) (hk : kField d = 0) :
      Spells d rest (.isbitset (Width.ofSelect (wsField d))) rest
  | sext16 {rest} (hop : opField d = 4) (hws : wsField d = 1) (hk : kField d = 0) : Spells d rest .sext16 rest
  | sext32 {rest} (hop : opField d = 4) (hws : wsField d = 2) (hk : kField d = 0) : Spells d rest .sext32 rest
  | rotr {rest} (hop : opField d = 5) (hk : kField d = 0) :
      Spells d rest (.rotr (Width.ofSelect (wsField d))) rest
  | rotl {rest} (hop : opField d = 6) (hk : kField d = 0) :
      Spells d rest (.rotl (Width.ofSelect (wsField d))) rest
  | incbcd {rest} (hop : opField d = 7) (hws : wsField d = 0) (hk : kField d = 0) : Spells d rest .incbcd rest
  | staticfor {e1 e2 : Halfword} {rest} (hop : opField d = 8) (hws : wsField d = 0) (hle : e1.toInt ≤ e2.toInt) :
      Spells d (e1 :: e2 :: rest) (.staticfor (kField d) e1.toInt e2.toInt) rest
  | bitcast {rest} (hop : opField d = 9) (h0 : (kField d).extractLsb' 2 6 = 0)
      (h : (kField d).extractLsb' 0 2 = wsField d) :
      Spells d rest (.bitcast (Width.ofSelect (wsField d)) (Width.ofSelect (wsField d))) rest

section
variable {d : Halfword} {rest r : List Halfword} {i : Instr}

theorem decode_of_spells (hz : zField d = 0) (h : Spells d rest i r) : decode (d :: rest) = .ok (i, r) := by
  cases h with
  | ones hop hk => rw [decode_ones hz hop, decodeOnes_of_le hk]
  | getbit hop hk => rw [decode_getbit hz hop, decodePlain_of_eq hk]
  | getbits hop hk => rw [decode_getbits hz hop, decodePlain_of_eq hk]
  | isbitset hop hk => rw [decode_isbitset hz hop, decodePlain_of_eq hk]
  | sext16 hop hws hk => rw [decode_sext hz hop, hws]; exact decodePlain_of_eq hk
  | sext32 hop hws hk => rw [decode_sext hz hop, hws]; exact decodePlain_of_eq hk
  | rotr hop hk => rw [decode_rotr hz hop, decodePlain_of_eq hk]
  | rotl hop hk => rw [decode_rotl hz hop, decodePlain_of_eq hk]
  | incbcd hop hws hk => rw [decode_incbcd hz hop, hws]; exact decodePlain_of_eq hk
  | staticfor hop hws hle => rw [decode_staticfor hz hop, decodeStaticfor_of_le hws hle]
  | bitcast hop h0 hk => rw [decode_bitcast hz hop, decodeBitcast_of_eq h0 hk]

theorem zField_of_decode_ok (h : decode (d :: rest) = .ok (i, r)) : zField d = 0 := by
  by_contra hz
  rw [decode_reserved d rest hz] at h
  cases h

/-- Nothing but `Spells` decodes: an inversion of the decoder, one case per operation. -/
theorem spells_of_decode (h : decode (d :: rest) = .ok (i, r)) : Spells d rest i r := by
  rw [decode_cons d rest (zField_of_decode_ok h)] at h
  split at h <;> rename_i hop
  case h_1 =>
    obtain ⟨hk, rfl, rfl⟩ := decodeOnes_ok h
    exact .ones (BitVec.eq_of_toNat_eq hop) hk
  case h_2 =>
    obtain ⟨hk, rfl, rfl⟩ := decodePlain_ok h
    exact .getbit (BitVec.eq_of_toNat_eq hop) hk
  case h_3 =>
    obtain ⟨hk, rfl, rfl⟩ := decodePlain_ok h
    exact .getbits (BitVec.eq_of_toNat_eq hop) hk
  case h_4 =>
    obtain ⟨hk, rfl, rfl⟩ := decodePlain_ok h
    exact .isbitset (BitVec.eq_of_toNat_eq hop) hk
  case h_5 =>
    obtain ⟨hk, rfl, ⟨hw, rfl⟩ | ⟨hw, rfl⟩⟩ := decodeSext_ok h
    · exact .sext16 (BitVec.eq_of_toNat_eq hop) (ofSelect_eq_iff.mp hw) hk
    · exact .sext32 (BitVec.eq_of_toNat_eq hop) (ofSelect_eq_iff.mp hw) hk
  case h_6 =>
    obtain ⟨hk, rfl, rfl⟩ := decodePlain_ok h
    exact .rotr (BitVec.eq_of_toNat_eq hop) hk
  case h_7 =>
    obtain ⟨hk, rfl, rfl⟩ := decodePlain_ok h
    exact .rotl (BitVec.eq_of_toNat_eq hop) hk
  case h_8 =>
    obtain ⟨hk, rfl, hw, rfl⟩ := decodeIncbcd_ok h
    exact .incbcd (BitVec.eq_of_toNat_eq hop) (ofSelect_eq_iff.mp hw) hk
  case h_9 =>
    obtain ⟨hw, e1, e2, rfl, hle, rfl⟩ := decodeStaticfor_ok h
    exact .staticfor (BitVec.eq_of_toNat_eq hop) (ofSelect_eq_iff.mp hw) hle
  case h_10 =>
    obtain ⟨h0, hk, rfl, rfl⟩ := decodeBitcast_ok h
    exact .bitcast (BitVec.eq_of_toNat_eq hop) h0 hk
  case h_11 => cases h

/-- The halfwords of a descriptor, told by `op` alone (R69). -/
theorem length_of_spells (h : Spells d rest i r) : (d :: rest).length = descriptorLength d + r.length := by
  cases h with
  | staticfor hop hws hle => simp [descriptorLength, hop]; omega
  | ones hop | getbit hop | getbits hop | isbitset hop | sext16 hop | sext32 hop | rotr hop | rotl hop
  | incbcd hop | bitcast hop => simp [descriptorLength, hop]; omega

end

/-! ## The rows of the opcode table in terms of the fields -/

theorem eq_descriptor_iff {d : Halfword} {op : BitVec 4} {ws : BitVec 2} {k : BitVec 8} :
    d = descriptor op ws k ↔ zField d = 0 ∧ opField d = op ∧ wsField d = ws ∧ kField d = k := by
  constructor
  · rintro rfl
    simp
  · rintro ⟨hz, rfl, rfl, rfl⟩
    exact (descriptor_fields d hz).symm

/-- A halfword matches a row when each of its fields, masked, is the pattern's. The masks of the table hold a field
whole or not at all, but for BITCAST's `k`, so the lemmas below read them as `BitVec.allOnes` or 0. -/
theorem hits_iff {m : String} {mask p d : Halfword} {op : BitVec 4} {ws : BitVec 2} {k : BitVec 8}
    (hp : p = descriptor op ws k) :
    (TableRow.mk m mask p).hits d = true ↔ zField d &&& zField mask = 0 ∧ opField d &&& opField mask = op ∧
      wsField d &&& wsField mask = ws ∧ kField d &&& kField mask = k := by
  simp only [TableRow.hits, hp, decide_eq_true_eq, eq_descriptor_iff, zField, opField, wsField, kField,
    BitVec.extractLsb'_and]

section Rows
variable {m : String} {p d : Halfword} (op : BitVec 4) (ws : BitVec 2)

/-- A row with any `ws` and `k`: ONES. -/
theorem hits_anyK (hp : p = descriptor op 0 0) :
    (TableRow.mk m 0xF300 p).hits d = true ↔ zField d = 0 ∧ opField d = op := by
  have hm : zField 0xF300#16 = BitVec.allOnes 2 ∧ opField 0xF300#16 = BitVec.allOnes 4 ∧ wsField 0xF300#16 = 0 ∧
    kField 0xF300#16 = 0 := by decide
  simp [hits_iff hp, hm, -BitVec.reduceAllOnes]

/-- A row with any `ws` and `k` zero. -/
theorem hits_zeroK (hp : p = descriptor op 0 0) :
    (TableRow.mk m 0xF3FF p).hits d = true ↔ zField d = 0 ∧ opField d = op ∧ kField d = 0 := by
  have hm : zField 0xF3FF#16 = BitVec.allOnes 2 ∧ opField 0xF3FF#16 = BitVec.allOnes 4 ∧ wsField 0xF3FF#16 = 0 ∧
    kField 0xF3FF#16 = BitVec.allOnes 8 := by decide
  simp [hits_iff hp, hm, -BitVec.reduceAllOnes]

/-- A row for one halfword. -/
theorem hits_single (hp : p = descriptor op ws 0) :
    (TableRow.mk m 0xFFFF p).hits d = true ↔ zField d = 0 ∧ opField d = op ∧ wsField d = ws ∧ kField d = 0 := by
  have hm : zField 0xFFFF#16 = BitVec.allOnes 2 ∧ opField 0xFFFF#16 = BitVec.allOnes 4 ∧
    wsField 0xFFFF#16 = BitVec.allOnes 2 ∧ kField 0xFFFF#16 = BitVec.allOnes 8 := by decide
  simp [hits_iff hp, hm, -BitVec.reduceAllOnes]

/-- A row with one `ws` and any `k`: STATICFOR. -/
theorem hits_oneWs (hp : p = descriptor op ws 0) :
    (TableRow.mk m 0xFF00 p).hits d = true ↔ zField d = 0 ∧ opField d = op ∧ wsField d = ws := by
  have hm : zField 0xFF00#16 = BitVec.allOnes 2 ∧ opField 0xFF00#16 = BitVec.allOnes 4 ∧
    wsField 0xFF00#16 = BitVec.allOnes 2 ∧ kField 0xFF00#16 = 0 := by decide
  simp [hits_iff hp, hm, -BitVec.reduceAllOnes]

theorem and_252_eq_zero_iff_extractLsb' (k : BitVec 8) : k &&& 252 = 0 ↔ k.extractLsb' 2 6 = 0 := by
  revert k; decide

/-- A row with any `ws` and the low two bits of `k` free: BITCAST. -/
theorem hits_lowK (hp : p = descriptor op 0 0) :
    (TableRow.mk m 0xF3FC p).hits d = true ↔
      zField d = 0 ∧ opField d = op ∧ (kField d).extractLsb' 2 6 = 0 := by
  have hm : zField 0xF3FC#16 = BitVec.allOnes 2 ∧ opField 0xF3FC#16 = BitVec.allOnes 4 ∧ wsField 0xF3FC#16 = 0 ∧
    kField 0xF3FC#16 = 252 := by decide
  rw [← and_252_eq_zero_iff_extractLsb']
  simp [hits_iff hp, hm, -BitVec.reduceAllOnes]

end Rows

/-- Two rows that one halfword matches agree where both masks look. -/
theorem pattern_and_mask_comm_of_hits {r1 r2 : TableRow} {d : Halfword} (h1 : r1.hits d = true)
    (h2 : r2.hits d = true) : r1.pattern &&& r2.mask = r2.pattern &&& r1.mask := by
  simp only [TableRow.hits, decide_eq_true_eq] at h1 h2
  rw [← h1, ← h2, BitVec.and_assoc, BitVec.and_assoc, BitVec.and_comm r1.mask]

theorem row_eq_of_pattern_and_mask_comm : ∀ r1 ∈ opcodeTable, ∀ r2 ∈ opcodeTable,
    r1.pattern &&& r2.mask = r2.pattern &&& r1.mask → r1 = r2 := by
  decide

/-- What R74 asks of a descriptor beside its row. -/
def SideCondition (m : String) (d e1 e2 : Halfword) : Prop :=
  (m = "ONES" → d.toNat % 256 ≤ 8 * 2 ^ (d.toNat / 1024 % 4)) ∧
  (m = "STATICFOR" → e1.toInt ≤ e2.toInt) ∧
  (m = "BITCAST" → d.toNat % 4 = d.toNat / 1024 % 4)

/-- The row of an operation. -/
def Instr.row : Instr → TableRow
  | .ones _ _ => opcodeTable[0]
  | .getbit _ => opcodeTable[1]
  | .getbits _ => opcodeTable[2]
  | .isbitset _ => opcodeTable[3]
  | .sext16 => opcodeTable[4]
  | .sext32 => opcodeTable[5]
  | .rotr _ => opcodeTable[6]
  | .rotl _ => opcodeTable[7]
  | .incbcd => opcodeTable[8]
  | .staticfor _ _ _ => opcodeTable[9]
  | .bitcast _ _ => opcodeTable[10]

theorem row_mem_opcodeTable (i : Instr) : i.row ∈ opcodeTable := by
  cases i <;> exact List.getElem_mem _

theorem mnemonic_row (i : Instr) : i.row.mnemonic = i.mnemonic := by
  cases i <;> rfl

section
variable {d e1 e2 : Halfword} {rest r : List Halfword} {i : Instr}

theorem row_hits_of_spells (hz : zField d = 0) (h : Spells d rest i r) : i.row.hits d = true := by
  cases h with
  | ones hop => exact (hits_anyK 0 rfl).2 ⟨hz, hop⟩
  | getbit hop hk | getbits hop hk | isbitset hop hk | rotr hop hk | rotl hop hk =>
    refine (hits_zeroK _ ?_).2 ⟨hz, hop, hk⟩
    rfl
  | sext16 hop hws hk | sext32 hop hws hk | incbcd hop hws hk =>
    refine (hits_single _ _ ?_).2 ⟨hz, hop, hws, hk⟩
    rfl
  | staticfor hop hws => exact (hits_oneWs 8 0 rfl).2 ⟨hz, hop, hws⟩
  | bitcast hop h0 => exact (hits_lowK 9 rfl).2 ⟨hz, hop, h0⟩

theorem sideCondition_of_spells (h : Spells d (e1 :: e2 :: rest) i r) : SideCondition i.mnemonic d e1 e2 := by
  cases h with
  | ones hop hk =>
    rw [bits_ofSelect, toNat_kField, toNat_wsField] at hk
    simp [SideCondition, Instr.mnemonic, hk]
  | staticfor hop hws hle => simp [SideCondition, Instr.mnemonic, hle]
  | bitcast hop h0 hk =>
    simp [SideCondition, Instr.mnemonic, (extractLsb'_kField_eq_wsField_iff d).mp hk]
  | getbit | getbits | isbitset | sext16 | sext32 | rotr | rotl | incbcd => simp [SideCondition, Instr.mnemonic]

theorem exists_spells_of_hits {row : TableRow} (hrow : row ∈ opcodeTable) (hits : row.hits d = true)
    (hside : SideCondition row.mnemonic d e1 e2) :
    zField d = 0 ∧ ∃ i r, Spells d (e1 :: e2 :: rest) i r ∧ i.mnemonic = row.mnemonic := by
  obtain ⟨hones, hfor, hcast⟩ := hside
  simp only [opcodeTable, List.mem_cons, List.not_mem_nil, or_false] at hrow
  obtain rfl | rfl | rfl | rfl | rfl | rfl | rfl | rfl | rfl | rfl | rfl := hrow
  · obtain ⟨hz, hop⟩ := (hits_anyK 0 rfl).1 hits
    have hk : (kField d).toNat ≤ (Width.ofSelect (wsField d)).bits := by
      rw [bits_ofSelect, toNat_kField, toNat_wsField]
      exact hones rfl
    exact ⟨hz, _, _, .ones hop hk, rfl⟩
  · obtain ⟨hz, hop, hk⟩ := (hits_zeroK 1 rfl).1 hits
    exact ⟨hz, _, _, .getbit hop hk, rfl⟩
  · obtain ⟨hz, hop, hk⟩ := (hits_zeroK 2 rfl).1 hits
    exact ⟨hz, _, _, .getbits hop hk, rfl⟩
  · obtain ⟨hz, hop, hk⟩ := (hits_zeroK 3 rfl).1 hits
    exact ⟨hz, _, _, .isbitset hop hk, rfl⟩
  · obtain ⟨hz, hop, hws, hk⟩ := (hits_single 4 1 rfl).1 hits
    exact ⟨hz, _, _, .sext16 hop hws hk, rfl⟩
  · obtain ⟨hz, hop, hws, hk⟩ := (hits_single 4 2 rfl).1 hits
    exact ⟨hz, _, _, .sext32 hop hws hk, rfl⟩
  · obtain ⟨hz, hop, hk⟩ := (hits_zeroK 5 rfl).1 hits
    exact ⟨hz, _, _, .rotr hop hk, rfl⟩
  · obtain ⟨hz, hop, hk⟩ := (hits_zeroK 6 rfl).1 hits
    exact ⟨hz, _, _, .rotl hop hk, rfl⟩
  · obtain ⟨hz, hop, hws, hk⟩ := (hits_single 7 0 rfl).1 hits
    exact ⟨hz, _, _, .incbcd hop hws hk, rfl⟩
  · obtain ⟨hz, hop, hws⟩ := (hits_oneWs 8 0 rfl).1 hits
    exact ⟨hz, _, _, .staticfor hop hws (hfor rfl), rfl⟩
  · obtain ⟨hz, hop, h0⟩ := (hits_lowK 9 rfl).1 hits
    exact ⟨hz, _, _, .bitcast hop h0 ((extractLsb'_kField_eq_wsField_iff d).mpr (hcast rfl)), rfl⟩

end

/-! ## The obligations -/

/-- Settles O3, on the four values of the field. -/
theorem widthSelectIsEightShifted : Obligations.WidthSelectIsEightShifted :=
  fun ws => (bits_ofSelect ws).trans (Nat.shiftLeft_eq 8 ws.toNat).symm

/-- Settles O4: read in the fields in the place of the numbers, a clause that refuses is the decoder's arm for `op` and
what that arm refuses, and a clause that decodes is a constructor of `Spells`. -/
theorem firstFailingCheckNamesTheRefusal : Obligations.FirstFailingCheckNamesTheRefusal := by
  intro d rest
  simp only [← toNat_opField, ← toNat_wsField, ← toNat_zField, ← toNat_kField, ← bits_ofSelect,
    ← extractLsb'_zero_two_eq_iff, ← extractLsb'_two_six_eq_zero_iff, List.mem_cons, List.not_mem_nil, or_false,
    ne_eq, BitVec.ofNat_toNat, BitVec.setWidth_eq, BitVec.toNat_eq_nat, Nat.reduceLT, Nat.reducePow, true_and]
  refine ⟨decode_reserved d rest, decode_unassigned, fun hz hop => ⟨?ones, ?oversized⟩, ?plainRefused,
    fun hz hk => ⟨?getbit, ?getbits, ?isbitset, ?rotr, ?rotl⟩, fun hz hop => ⟨?sextRefused, ?sext16, ?sext32⟩,
    fun hz hop => ⟨?incbcdRefused, ?incbcd⟩, fun hz hop => ⟨?staticforRefused, ?staticfor⟩,
    fun hz hop => ⟨?bitcastRefused, ?mismatch, ?bitcast⟩⟩
  case ones => exact fun hk => decode_of_spells hz (.ones hop hk)
  case oversized => exact fun hk => (decode_ones hz hop).trans (decodeOnes_of_lt hk)
  case plainRefused =>
    rintro hz (hop | hop | hop | hop | hop) hk
    · exact (decode_getbit hz hop).trans (decodePlain_of_ne hk)
    · exact (decode_getbits hz hop).trans (decodePlain_of_ne hk)
    · exact (decode_isbitset hz hop).trans (decodePlain_of_ne hk)
    · exact (decode_rotr hz hop).trans (decodePlain_of_ne hk)
    · exact (decode_rotl hz hop).trans (decodePlain_of_ne hk)
  case getbit => exact fun hop => decode_of_spells hz (.getbit hop hk)
  case getbits => exact fun hop => decode_of_spells hz (.getbits hop hk)
  case isbitset => exact fun hop => decode_of_spells hz (.isbitset hop hk)
  case rotr => exact fun hop => decode_of_spells hz (.rotr hop hk)
  case rotl => exact fun hop => decode_of_spells hz (.rotl hop hk)
  case sextRefused => exact fun h => (decode_sext hz hop).trans (decodeSext_refused h)
  case sext16 => exact fun hws hk => decode_of_spells hz (.sext16 hop hws hk)
  case sext32 => exact fun hws hk => decode_of_spells hz (.sext32 hop hws hk)
  case incbcdRefused => exact fun h => (decode_incbcd hz hop).trans (decodeIncbcd_refused h)
  case incbcd => exact fun hws hk => decode_of_spells hz (.incbcd hop hws hk)
  case staticforRefused => exact fun h => (decode_staticfor hz hop).trans (decodeStaticfor_refused h)
  case staticfor =>
    rintro hws e1 e2 r rfl
    exact ⟨fun hlt => (decode_staticfor hz hop).trans (decodeStaticfor_reversed hws hlt),
      fun hle => decode_of_spells hz (.staticfor hop hws hle)⟩
  case bitcastRefused => exact fun h0 => (decode_bitcast hz hop).trans (decodeBitcast_reserved h0)
  case mismatch => exact fun h0 hk => (decode_bitcast hz hop).trans (decodeBitcast_mismatch h0 hk)
  case bitcast => exact fun h0 hk => decode_of_spells hz (.bitcast hop h0 hk)

/-- Settles O5: a descriptor that decodes matches the row of its operation, a row and its side condition spell an
operation, and two rows that share a halfword agree under their common mask, so are one row. -/
theorem opcodeTableAgreesWithTheDecoder : Obligations.OpcodeTableAgreesWithTheDecoder := by
  refine ⟨fun d e1 e2 rest m => ⟨?_, ?_⟩, fun d r1 h1 r2 h2 hits1 hits2 => ?_⟩
  · rintro ⟨i, r, h, rfl⟩
    exact ⟨i.row, row_mem_opcodeTable i, row_hits_of_spells (zField_of_decode_ok h) (spells_of_decode h),
      mnemonic_row i, sideCondition_of_spells (spells_of_decode h)⟩
  · rintro ⟨row, hrow, hits, rfl, hside⟩
    obtain ⟨hz, i, r, hs, hm⟩ := exists_spells_of_hits (rest := rest) hrow hits hside
    exact ⟨i, r, decode_of_spells hz hs, hm⟩
  · exact row_eq_of_pattern_and_mask_comm r1 h1 r2 h2 (pattern_and_mask_comm_of_hits hits1 hits2)

/-- Settles O6: of the descriptors that decode, STATICFOR's alone reads on (`length_of_spells`). -/
theorem descriptorLengthIsToldByOp : Obligations.DescriptorLengthIsToldByOp := by
  intro d rest r i h
  rw [length_of_spells (spells_of_decode h), descriptorLength_eq]

end Sys2Proof

/-! The statements of 40_mask_extract.md: the mask (R100, R104), the three extractions (R101 to R103, R105), and the
relations between the four operations (R106). -/

namespace Sys2Proof

/-! ## One-halfword lines by number, as the statements write a descriptor -/

theorem decodeLine_of_decode_ok {words : List Halfword} {i : Instr} (h : decode words = .ok (i, [])) :
    decodeLine words = .ok i := by
  rw [decodeLine, h]

theorem decodeLine_of_decode_error {words : List Halfword} {v : BuildViolation} (h : decode words = .error v) :
    decodeLine words = .error v := by
  rw [decodeLine, h]

/-- The fields of a halfword stand at the weights `2^12`, `2^10` and 1 (R61). -/
theorem ofNat_eq_descriptor {n : Nat} {op : BitVec 4} {ws : BitVec 2} {k : BitVec 8}
    (hn : n = op.toNat * 0x1000 + ws.toNat * 0x400 + k.toNat) : BitVec.ofNat 16 n = descriptor op ws k := by
  have hop := op.isLt
  have hws := ws.isLt
  have hk := k.isLt
  rw [eq_descriptor_iff]
  simp only [← BitVec.toNat_inj, toNat_zField, toNat_opField, toNat_wsField, toNat_kField, BitVec.toNat_ofNat,
    BitVec.ofNat_eq_ofNat]
  omega

section MaskExtractLines
variable (w : Width)

theorem decodeLine_descriptor_ones {k : BitVec 8} (h : k.toNat ≤ w.bits) :
    decodeLine [descriptor 0 w.select k] = .ok (.ones w k.toNat) := by
  apply decodeLine_of_decode_ok
  simp [decode_ones, decodeOnes_of_le h]

theorem decodeLine_descriptor_ones_oversized {k : BitVec 8} (h : w.bits < k.toNat) :
    decodeLine [descriptor 0 w.select k] = .error .bv1 := by
  apply decodeLine_of_decode_error
  simp [decode_ones, decodeOnes_of_lt h]

theorem decodeLine_descriptor_getbit : decodeLine [descriptor 1 w.select 0] = .ok (.getbit w) := by
  apply decodeLine_of_decode_ok
  simp [decode_getbit, decodePlain_of_eq]

theorem decodeLine_descriptor_getbits : decodeLine [descriptor 2 w.select 0] = .ok (.getbits w) := by
  apply decodeLine_of_decode_ok
  simp [decode_getbits, decodePlain_of_eq]

theorem decodeLine_descriptor_isbitset : decodeLine [descriptor 3 w.select 0] = .ok (.isbitset w) := by
  apply decodeLine_of_decode_ok
  simp [decode_isbitset, decodePlain_of_eq]

end MaskExtractLines

end Sys2Proof

namespace Sys2Proof.Machine

theorem width_le_sixtyFour (w : Width) : w.bits ≤ 64 := by cases w <;> decide

/-! ## The next state of each operation -/

section Exec
variable {w : Width} (s : State)

theorem exec_ones_of_le {k : Nat} (h : k ≤ w.bits) :
    exec (.ones w k) s = .next (s.setY (mask w.bits k)) := if_neg (Nat.not_lt.mpr h)

theorem exec_ones_of_lt {k : Nat} (h : w.bits < k) : exec (.ones w k) s = .refused (.build .bv1) := if_pos h

theorem exec_getbit : exec (.getbit w) s = .next (s.setY (getBit w.bits (s.aPort w) s.b)) := rfl

theorem exec_getbits : exec (.getbits w) s = .next (s.setY (getBits w.bits (s.aPort w) s.b s.c)) := rfl

theorem exec_isbitset : exec (.isbitset w) s = .next (s.setY (isBitSet w.bits (s.aPort w) s.b)) := rfl

end Exec

/-! ## The mask -/

theorem popcount_eq_count {W : Nat} (v : BitVec W) : popcount v = Nat.count (fun i => v.getLsbD i) W := by
  simp [popcount, Nat.count, List.countP_eq_length_filter]

/-- Of the positions below `k` every one counts, of the `W - k` above none (R104). -/
theorem popcount_mask {W k : Nat} (h : k ≤ W) : popcount (mask W k) = k := by
  have below : Nat.count (fun i => (mask W k).getLsbD i) k = k :=
    Nat.count_of_forall fun i hi => by simp [mask_getLsbD h, hi]
  have above : Nat.count (fun i => (mask W k).getLsbD (k + i)) (W - k) = 0 :=
    Nat.count_of_forall_not fun i _ => by simp [mask_getLsbD h]
  calc popcount (mask W k)
      = Nat.count (fun i => (mask W k).getLsbD i) (k + (W - k)) := by
        rw [popcount_eq_count, Nat.add_sub_cancel' h]
    _ = k := by rw [Nat.count_add, below, above, Nat.add_zero]

/-! ## The extractions as bit-vector terms -/

section Extract
variable {W : Nat} (a : BitVec W) {b c : BitVec 32}

/-- R106: a Field that fits is the shifted value under the mask of its width. -/
theorem getBits_eq_and_mask (h : b.toNat + c.toNat ≤ W) :
    getBits W a b c = (a >>> b.toNat) &&& mask W c.toNat := by
  apply BitVec.eq_of_getLsbD_eq
  intro i _
  rw [getBits_getLsbD a h, BitVec.getLsbD_and, BitVec.getLsbD_ushiftRight, mask_getLsbD (by omega), Bool.and_comm]

/-- A Field that ends at bit `W - 1` is the shifted value alone (R105). -/
theorem getBits_eq_ushiftRight (h : b.toNat + c.toNat = W) : getBits W a b c = a >>> b.toNat := by
  apply BitVec.eq_of_getLsbD_eq
  intro i _
  rw [getBits_getLsbD a h.le, BitVec.getLsbD_ushiftRight]
  by_cases hi : i < c.toNat
  · simp [hi]
  · simp [hi, BitVec.getLsbD_of_ge a (b.toNat + i) (by omega)]

theorem getBits_zero_width (hc : c.toNat = 0) (hb : b.toNat ≤ W) : getBits W a b c = 0 := by
  apply BitVec.eq_of_getLsbD_eq
  intro i _
  simp [getBits_getLsbD a (show b.toNat + c.toNat ≤ W by omega), hc]

/-- R106: one bit is a Field of width 1. -/
theorem getBit_eq_getBits_one (h : b.toNat < W) : getBit W a b = getBits W a b 1 := by
  apply BitVec.eq_of_toNat_eq
  have hc : b.toNat + (1 : BitVec 32).toNat ≤ W := h
  rw [getBit_inside a h, getBits_inside a hc]
  rfl

theorem getBit_eq_ite (h : b.toNat < W) : getBit W a b = if a.getLsbD b.toNat then 1 else 0 := by
  have hW : 1 < 2 ^ W := Nat.one_lt_two_pow (by omega)
  apply BitVec.eq_of_toNat_eq
  rw [getBit_inside a h, BitVec.getLsbD, Nat.testBit_eq_decide_div_mod_eq]
  obtain h0 | h1 := Nat.mod_two_eq_zero_or_one (a.toNat / 2 ^ b.toNat)
  · simp [h0]
  · simp [h1, Nat.mod_eq_of_lt hW]

theorem isBitSet_eq_ofBool (b : BitVec 32) : isBitSet W a b = BitVec.ofBool (decide (getBit W a b ≠ 0)) := by
  by_cases h : getBit W a b = 0
  · simp [isBitSet, h]
  · rw [isBitSet, if_neg h, decide_eq_true h]
    rfl

theorem isBitSet_inside (h : b.toNat < W) : isBitSet W a b = BitVec.ofBool (a.getLsbD b.toNat) := by
  have hW : W ≠ 0 := by omega
  rw [isBitSet_eq_ofBool, getBit_eq_ite a h]
  cases a.getLsbD b.toNat <;> simp [hW]

theorem isBitSet_outside (h : W ≤ b.toNat) :
    isBitSet W a b = BitVec.ofBool (decide (Config.uGetbit W a b ≠ 0)) := by
  rw [isBitSet_eq_ofBool, getBit_outside a h]

/-- R106. -/
theorem isBitSet_eq_one_iff (h : b.toNat < W) : isBitSet W a b = 1 ↔ getBit W a b = 1 := by
  have hW : W ≠ 0 := by omega
  rw [isBitSet_inside a h, getBit_eq_ite a h]
  cases a.getLsbD b.toNat <;> simp [hW]

end Extract

/-! ## The obligations -/

/-- Settles O9: the descriptor is that of ONES with the fields of its number, and the mask is `mask_toNat` and
`mask_getLsbD`. -/
theorem onesGivesTheLowMask : Obligations.OnesGivesTheLowMask := by
  intro w k s
  have immediate (hk : k < 256) : (BitVec.ofNat 8 k).toNat = k := Nat.mod_eq_of_lt hk
  have word (hk : k < 256) :
      BitVec.ofNat 16 (w.select.toNat * 0x400 + k) = descriptor 0 w.select (BitVec.ofNat 8 k) :=
    ofNat_eq_descriptor (by simp [immediate hk])
  refine ⟨fun hle => ⟨?_, mask w.bits k, exec_ones_of_le s hle, mask_toNat hle, fun i => mask_getLsbD hle⟩,
    fun hlt => ⟨exec_ones_of_lt s hlt, fun hk => ?_⟩⟩
  · have hk : k < 256 := by have := width_le_sixtyFour w; omega
    rw [word hk, decodeLine_descriptor_ones w (by rwa [immediate hk]), immediate hk]
  · rw [word hk, decodeLine_descriptor_ones_oversized w (by rwa [immediate hk])]

/-- Settles O10, by `popcount_mask`; no bit at `k` or above is set, so for `k = 0` no bit at all. -/
theorem maskHasCountOneBits : Obligations.MaskHasCountOneBits := by
  intro w k s hle
  refine ⟨mask w.bits k, exec_ones_of_le s hle, popcount_mask hle, fun i hi => ?_, ?_⟩
  · simp [mask_getLsbD hle, hi]
  · rintro rfl
    rfl

/-- Settles O11, by `getBit_inside`, read as 0 or 1 by `getBit_eq_ite`, and `getBit_outside`. -/
theorem getbitGivesTheBit : Obligations.GetbitGivesTheBit := by
  intro w s
  refine ⟨?_, fun hlt => ⟨_, exec_getbit s, getBit_inside _ hlt, getBit_eq_ite _ hlt⟩, fun hle => ?_⟩
  · have word : BitVec.ofNat 16 (0x1000 + w.select.toNat * 0x400) = descriptor 1 w.select 0 :=
      ofNat_eq_descriptor rfl
    rw [word, decodeLine_descriptor_getbit]
  · rw [exec_getbit, getBit_outside _ hle]
    rfl

/-- Settles O12, by `getBits_inside`, bit by bit `getBits_getLsbD`, and `getBits_outside`. -/
theorem getbitsGivesTheField : Obligations.GetbitsGivesTheField := by
  intro w s
  refine ⟨?_, fun hle => ⟨_, exec_getbits s, getBits_inside _ hle, getBits_getLsbD _ hle⟩, fun hlt => ?_⟩
  · have word : BitVec.ofNat 16 (0x2000 + w.select.toNat * 0x400) = descriptor 2 w.select 0 :=
      ofNat_eq_descriptor rfl
    rw [word, decodeLine_descriptor_getbits]
  · rw [exec_getbits, getBits_outside _ hlt]
    rfl

/-- Settles O13: an empty Field is zero, and a Field that ends at bit `W - 1` is the shifted value, whose shift is 0
for a Field of the full width. -/
theorem getbitsEdgesOfTheField : Obligations.GetbitsEdgesOfTheField := by
  intro w s
  refine ⟨fun hc hb => ?_, fun hc hle => ?_, fun _ heq => ?_⟩
  · rw [exec_getbits, getBits_zero_width _ hc hb]
    rfl
  · have hb : s.b.toNat = 0 := by omega
    refine ⟨hb, ?_⟩
    rw [exec_getbits, getBits_eq_ushiftRight _ (by omega), hb, BitVec.ushiftRight_zero]
    rfl
  · rw [exec_getbits, getBits_eq_ushiftRight _ heq, show s.b.toNat = w.bits - s.c.toNat by omega]
    rfl

/-- Settles O14, by `isBitSet_inside` and `isBitSet_outside`. -/
theorem isbitsetTestsTheBit : Obligations.IsbitsetTestsTheBit := by
  intro w s
  refine ⟨?_, fun hlt => ?_, fun hle => ?_⟩
  · have word : BitVec.ofNat 16 (0x3000 + w.select.toNat * 0x400) = descriptor 3 w.select 0 :=
      ofNat_eq_descriptor rfl
    rw [word, decodeLine_descriptor_isbitset]
  · rw [exec_isbitset, isBitSet_inside _ hlt]
    rfl
  · rw [exec_isbitset, isBitSet_outside _ hle]
    rfl

/-- Settles O15: the result equations reduce each relation to the one between the pure functions. -/
theorem extractionOperationsAgree : Obligations.ExtractionOperationsAgree := by
  intro w s
  refine ⟨fun hlt => ?_, fun hle => ⟨mask w.bits s.c.toNat, ?_, ?_⟩, fun hlt => ?_, fun hlt => ⟨?_, ?_⟩⟩
  · rw [result_getbit, result_getbits, getBit_eq_getBits_one _ hlt]
    rfl
  · rw [result_ones, if_pos (by omega)]
  · rw [result_getbits, getBits_eq_and_mask _ hle]
  · simpa using isBitSet_eq_one_iff (s.aPort w) hlt
  · exact exec_ones_of_lt s hlt
  · rw [result_getbits, getBits_outside _ (by omega)]

end Sys2Proof.Machine

/-! The statements of 41_sign_extend.md: the two operations (R122, R123), the shift construction (R121), and the laws
of sign extension (R126). -/

namespace Sys2Proof

/-! ## The two descriptors -/

theorem decodeLine_sext16 : decodeLine [0x4400] = .ok .sext16 :=
  decodeLine_of_decode_ok (decode_of_spells rfl (.sext16 rfl rfl rfl))

theorem decodeLine_sext32 : decodeLine [0x4800] = .ok .sext32 :=
  decodeLine_of_decode_ok (decode_of_spells rfl (.sext32 rfl rfl rfl))

end Sys2Proof

namespace Sys2Proof.Machine

/-! ## The next state of each operation -/

section Exec
variable {s : State}

theorem exec_sext16_of_eq {v : BitVec 16} (h : signExtend 16 (s.aPort .w16) s.b = v) :
    exec .sext16 s = .next { s with y := ⟨16, v⟩ } := h ▸ rfl

theorem exec_sext32_of_eq {v : BitVec 32} (h : signExtend 32 (s.aPort .w32) s.b = v) :
    exec .sext32 s = .next { s with y := ⟨32, v⟩ } := h ▸ rfl

end Exec

/-! ## Sign extension inside its precondition, at any output width -/

section SignExtend
variable {O : Nat} (a : BitVec O) {b : BitVec 32} (h1 : 1 ≤ b.toNat) (h2 : b.toNat ≤ O)
include h1 h2

/-- The value of R120. -/
theorem signExtend_toNat :
    (signExtend O a b).toNat = if a.toNat % 2 ^ b.toNat < 2 ^ (b.toNat - 1) then a.toNat % 2 ^ b.toNat
      else a.toNat % 2 ^ b.toNat + 2 ^ O - 2 ^ b.toNat := by
  rw [signExtend_inside a h1 h2, sext_toNat a h2]

/-- The bits of R120. -/
theorem signExtend_getLsbD {i : Nat} (hi : i < O) :
    (signExtend O a b).getLsbD i = if i < b.toNat then a.getLsbD i else a.getLsbD (b.toNat - 1) := by
  rw [signExtend_inside a h1 h2, sext_getLsbD a h1 h2 hi]

/-- The model's function is the library's sign extension of the low bits, so both read as the same signed number. -/
theorem signExtend_eq_signExtend_setWidth : signExtend O a b = (a.setWidth b.toNat).signExtend O := by
  apply BitVec.eq_of_getLsbD_eq
  intro i hi
  rw [signExtend_getLsbD a h1 h2 hi, BitVec.getLsbD_signExtend, BitVec.msb_setWidth, BitVec.getLsbD_setWidth]
  by_cases his : i < b.toNat
  · simp [hi, his]
  · have hpos : 0 < b.toNat := h1
    simp [hi, his, hpos]

theorem signExtend_toInt : (signExtend O a b).toInt = (a.setWidth b.toNat).toInt := by
  rw [signExtend_eq_signExtend_setWidth a h1 h2, BitVec.toInt_signExtend_of_le h2]

/-- R121: the left shift brings bit `b - 1` to the top, and the arithmetic right shift copies it down. -/
theorem signExtend_eq_sshiftRight_shiftLeft :
    signExtend O a b = (a <<< (O - b.toNat)).sshiftRight (O - b.toNat) := by
  apply BitVec.eq_of_getLsbD_eq
  intro i hi
  have top : (a <<< (O - b.toNat)).msb = a.getLsbD (b.toNat - 1) := by
    have hlt : O - b.toNat < O := by omega
    have hpos : O - 1 - (O - b.toNat) = b.toNat - 1 := by omega
    simp [BitVec.msb_shiftLeft, BitVec.getMsbD_eq_getLsbD, hlt, hpos]
  rw [signExtend_getLsbD a h1 h2 hi, BitVec.getLsbD_sshiftRight, top]
  by_cases his : i < b.toNat
  · have hin : O - b.toNat + i < O := by omega
    simp [hi, his, hin]
  · have hout : ¬ O - b.toNat + i < O := by omega
    simp [hi, his, hout]

/-- R126 (a). -/
theorem signExtend_full_width (hO : b.toNat = O) : signExtend O a b = a := by
  apply BitVec.eq_of_getLsbD_eq
  intro i hi
  rw [signExtend_getLsbD a h1 h2 hi, if_pos (hO ▸ hi)]

/-- R126 (b): the value of R120 reads `a` modulo `2^b` alone. -/
theorem signExtend_congr_mod {a' : BitVec O} (h : a.toNat % 2 ^ b.toNat = a'.toNat % 2 ^ b.toNat) :
    signExtend O a b = signExtend O a' b := by
  apply BitVec.eq_of_toNat_eq
  rw [signExtend_toNat a h1 h2, signExtend_toNat a' h1 h2, h]

/-- R126 (c): the bit that the second extension copies is a copy of bit `b - 1` already. -/
theorem signExtend_signExtend {b' : BitVec 32} (hle : b.toNat ≤ b'.toNat) (h2' : b'.toNat ≤ O) :
    signExtend O (signExtend O a b) b' = signExtend O a b := by
  apply BitVec.eq_of_getLsbD_eq
  intro i hi
  rw [signExtend_getLsbD _ (h1.trans hle) h2' hi]
  split
  · rfl
  · next hib =>
    have hi' : ¬ i < b.toNat := by omega
    rw [signExtend_getLsbD a h1 h2 hi, if_neg hi', signExtend_getLsbD a h1 h2 (by omega)]
    split
    · rw [show b'.toNat - 1 = b.toNat - 1 by omega]
    · rfl

/-- R126 (d). -/
theorem signExtend_getLsbD_of_lt {i : Nat} (hi : i < b.toNat) : (signExtend O a b).getLsbD i = a.getLsbD i := by
  rw [signExtend_getLsbD a h1 h2 (hi.trans_le h2), if_pos hi]

end SignExtend

/-- A pattern of `s` bits read as two's complement (41_sign_extend.md R120). -/
theorem toInt_eq_ite_lt_half {s : Nat} (x : BitVec s) (hs : 1 ≤ s) :
    x.toInt = if x.toNat < 2 ^ (s - 1) then (x.toNat : Int) else (x.toNat : Int) - 2 ^ s := by
  have half : 2 * x.toNat < 2 ^ s ↔ x.toNat < 2 ^ (s - 1) := by
    rw [← Nat.two_pow_pred_mul_two hs, Nat.mul_comm, Nat.mul_lt_mul_right two_pos]
  rw [BitVec.toInt_eq_toNat_cond]
  simp only [half, Nat.cast_pow, Nat.cast_ofNat]

/-- The low `c` bits of an extracted Field are the Field, which R126 (f) extends. -/
theorem setWidth_getBits_toNat {W : Nat} (x : BitVec W) {b c : BitVec 32} (h : b.toNat + c.toNat ≤ W) :
    ((getBits W x b c).setWidth c.toNat).toNat = x.toNat / 2 ^ b.toNat % 2 ^ c.toNat := by
  rw [BitVec.toNat_setWidth, getBits_inside x h, Nat.mod_mod]

/-! ## The obligations -/

/-- Settles O16, by `signExtend_getLsbD`, `signExtend_toNat` and `signExtend_outside` at 16 bits. -/
theorem sextSixteenExtendsTheSign : Obligations.SextSixteenExtendsTheSign := fun _ =>
  ⟨decodeLine_sext16,
    fun h1 h2 => ⟨_, exec_sext16_of_eq rfl, fun _ => signExtend_getLsbD _ h1 h2, signExtend_toNat _ h1 h2⟩,
    fun hout => exec_sext16_of_eq (signExtend_outside _ hout)⟩

/-- Settles O17, by `signExtend_getLsbD`, `signExtend_toNat` and `signExtend_outside` at 32 bits. -/
theorem sextThirtyTwoExtendsTheSign : Obligations.SextThirtyTwoExtendsTheSign := fun _ =>
  ⟨decodeLine_sext32,
    fun h1 h2 => ⟨_, exec_sext32_of_eq rfl, fun _ => signExtend_getLsbD _ h1 h2, signExtend_toNat _ h1 h2⟩,
    fun hout => exec_sext32_of_eq (signExtend_outside _ hout)⟩

/-- Settles O18, by `signExtend_eq_sshiftRight_shiftLeft` at 16 and at 32 bits. -/
theorem signExtensionIsTheShiftConstruction : Obligations.SignExtensionIsTheShiftConstruction := fun _ =>
  ⟨fun h1 h2 => exec_sext16_of_eq (signExtend_eq_sshiftRight_shiftLeft _ h1 h2),
    fun h1 h2 => exec_sext32_of_eq (signExtend_eq_sshiftRight_shiftLeft _ h1 h2)⟩

/-- Settles O19: (a) to (d) hold at every output width; the bounds of (e) are those of a signed number of `b` bits,
and for (f) these bits are the Field. -/
theorem signExtensionLaws : Obligations.SignExtensionLaws := by
  refine ⟨fun O a a' b b' _ h1 h2 => ⟨signExtend_full_width a h1 h2, signExtend_congr_mod a h1 h2,
    signExtend_signExtend a h1 h2, fun i => signExtend_getLsbD_of_lt a h1 h2, ?_, ?_⟩, fun x b c h1 hle => ?_⟩
  · rw [signExtend_toInt a h1 h2]
    exact BitVec.le_toInt _
  · rw [signExtend_toInt a h1 h2]
    exact Int.le_sub_one_of_lt BitVec.toInt_lt
  · have hc : c.toNat ≤ 32 := by omega
    rw [signExtend_toInt _ h1 hc, toInt_eq_ite_lt_half _ h1, setWidth_getBits_toNat x hle]

end Sys2Proof.Machine

/-! The statements of 42_rotate.md: the reduction of the amount (R131, R132), the two rotations (R133, R134), and the
laws of rotation (R135, R136). -/

namespace Sys2Proof

/-! ## The two descriptors -/

section RotateLines
variable (w : Width)

theorem decodeLine_descriptor_rotr : decodeLine [descriptor 5 w.select 0] = .ok (.rotr w) := by
  apply decodeLine_of_decode_ok
  simp [decode_rotr, decodePlain_of_eq]

theorem decodeLine_descriptor_rotl : decodeLine [descriptor 6 w.select 0] = .ok (.rotl w) := by
  apply decodeLine_of_decode_ok
  simp [decode_rotl, decodePlain_of_eq]

end RotateLines

end Sys2Proof

namespace Sys2Proof.Machine

/-! ## The next state of each operation, and its ports -/

section Exec
variable {w : Width} (s : State)

theorem exec_rotr :
    exec (.rotr w) s = .next (s.setY (rotateRight w.bits (s.aPort w) (rotateAmount w.bits s.b))) := rfl

theorem exec_rotl :
    exec (.rotl w) s = .next (s.setY (rotateLeft w.bits (s.aPort w) (rotateAmount w.bits s.b))) := rfl

/-- Port `a` reads the low `W` bits, so a `W`-bit value put on it comes back (R26). -/
@[simp] theorem aPort_with_a (v : BitVec w.bits) : State.aPort { s with a := v.setWidth 64 } w = v :=
  (BitVec.setWidth_setWidth_of_le v (width_le_sixtyFour w)).trans v.setWidth_eq

@[simp] theorem aPort_with_b (b : BitVec 32) : State.aPort { s with b := b } w = s.aPort w := rfl

end Exec

/-! ## The reduced amount (R131)

The width divides `2^32`, the range of port `b`: the reduction forgets how the port is read and how a sum wraps. -/

section Amount
variable {W : Nat}

theorem rotateAmount_ofNat (hW : W ∣ 2 ^ 32) (n : Nat) : rotateAmount W (BitVec.ofNat 32 n) = n % W := by
  rw [rotateAmount, BitVec.toNat_ofNat, Nat.mod_mod_of_dvd n hW]

theorem rotateAmount_zero : rotateAmount W 0 = 0 := Nat.zero_mod W

theorem rotateAmount_width (hW : W ∣ 2 ^ 32) : rotateAmount W (BitVec.ofNat 32 W) = 0 := by
  rw [rotateAmount_ofNat hW, Nat.mod_self]

theorem rotateAmount_add (hW : W ∣ 2 ^ 32) (p q : BitVec 32) :
    rotateAmount W (p + q) = (rotateAmount W p + rotateAmount W q) % W := by
  simp only [rotateAmount]
  rw [BitVec.toNat_add, Nat.mod_mod_of_dvd _ hW, Nat.add_mod]

/-- D9: the floored remainder of the signed reading is that of the unsigned one. -/
theorem toInt_emod_eq_rotateAmount (hW : W ∣ 2 ^ 32) (b : BitVec 32) : b.toInt % (W : Int) = rotateAmount W b := by
  have hdvd : (W : Int) ∣ ((2 ^ 32 : Nat) : Int) := Int.natCast_dvd_natCast.mpr hW
  calc b.toInt % (W : Int)
      = b.toInt % ((2 ^ 32 : Nat) : Int) % (W : Int) := (Int.emod_emod_of_dvd _ hdvd).symm
    _ = (b.toNat : Int) % ((2 ^ 32 : Nat) : Int) % (W : Int) := by rw [BitVec.toInt_eq_toNat_bmod, Int.bmod_emod]
    _ = rotateAmount W b := Int.emod_emod_of_dvd _ hdvd

end Amount

/-! ## The rotations as functions of a reduced amount -/

section Rotate
variable {W m n : Nat} (a : BitVec W)

theorem rotateRight_toNat (n : Nat) :
    (rotateRight W a n).toNat = (a.toNat / 2 ^ n) ||| (a.toNat * 2 ^ (W - n) % 2 ^ W) := by
  have hlt : a.toNat / 2 ^ n < 2 ^ W := (Nat.div_le_self ..).trans_lt a.isLt
  rw [rotateRight, BitVec.toNat_ofNat, Nat.or_mod_two_pow, Nat.shiftRight_eq_div_pow, Nat.shiftLeft_eq,
    Nat.mod_eq_of_lt hlt]

theorem rotateLeft_toNat (n : Nat) :
    (rotateLeft W a n).toNat = (a.toNat * 2 ^ n % 2 ^ W) ||| (a.toNat / 2 ^ (W - n)) := by
  have hlt : a.toNat / 2 ^ (W - n) < 2 ^ W := (Nat.div_le_self ..).trans_lt a.isLt
  rw [rotateLeft, BitVec.toNat_ofNat, Nat.or_mod_two_pow, Nat.shiftRight_eq_div_pow, Nat.shiftLeft_eq,
    Nat.mod_eq_of_lt hlt]

theorem rotateRight_zero : rotateRight W a 0 = a := by
  apply BitVec.eq_of_toNat_eq
  simp [rotateRight_toNat]

/-- Bit `i + m` comes to place `i`, modulo the width, so two rotations add their amounts (R136 c). -/
theorem rotateRight_rotateRight (hm : m < W) (hn : n < W) :
    rotateRight W (rotateRight W a m) n = rotateRight W a ((m + n) % W) := by
  have hW : 0 < W := by omega
  apply BitVec.eq_of_getLsbD_eq
  intro i hi
  rw [rotateRight_getLsbD _ hn hi, rotateRight_getLsbD a hm (Nat.mod_lt _ hW),
    rotateRight_getLsbD a (Nat.mod_lt _ hW) hi, Nat.mod_add_mod, Nat.add_mod_mod, Nat.add_assoc, Nat.add_comm n]

/-- R136 (a), for two amounts that sum to a multiple of the width. -/
theorem rotateLeft_eq_rotateRight (hm : m < W) (hn : n < W) (h : (m + n) % W = 0) :
    rotateLeft W a m = rotateRight W a n := by
  apply BitVec.eq_of_getLsbD_eq
  intro i hi
  have place : (i + (W - m)) % W = (i + n) % W := by
    calc (i + (W - m)) % W
        = (i + (W - m) + (m + n)) % W := by rw [Nat.add_mod _ (m + n), h, Nat.add_zero, Nat.mod_mod]
      _ = (i + n + W) % W := by congr 1; omega
      _ = (i + n) % W := Nat.add_mod_right ..
  rw [rotateLeft_getLsbD a hm hi, rotateRight_getLsbD a hn hi, place]

theorem add_sub_mod_mod_self (hn : n < W) : (n + (W - n) % W) % W = 0 := by
  rw [Nat.add_mod_mod, Nat.add_sub_cancel' hn.le, Nat.mod_self]

/-- R136 (a). -/
theorem rotateLeft_eq_rotateRight_sub (hn : n < W) : rotateLeft W a n = rotateRight W a ((W - n) % W) :=
  rotateLeft_eq_rotateRight a hn (Nat.mod_lt _ (by omega)) (add_sub_mod_mod_self hn)

theorem rotateLeft_zero (hW : 0 < W) : rotateLeft W a 0 = a := by
  rw [rotateLeft_eq_rotateRight a hW hW (Nat.zero_mod W), rotateRight_zero]

/-- R135: the two amounts sum to the width. -/
theorem rotateLeft_rotateRight (hn : n < W) : rotateLeft W (rotateRight W a n) n = a := by
  rw [rotateLeft_eq_rotateRight_sub _ hn, rotateRight_rotateRight a hn (Nat.mod_lt _ (by omega)),
    add_sub_mod_mod_self hn, rotateRight_zero]

theorem rotateRight_rotateLeft (hn : n < W) : rotateRight W (rotateLeft W a n) n = a := by
  rw [rotateLeft_eq_rotateRight_sub _ hn, rotateRight_rotateRight a (Nat.mod_lt _ (by omega)) hn, Nat.add_comm,
    add_sub_mod_mod_self hn, rotateRight_zero]

/-- R134 as the specification writes it: the place is counted back, over the integers. -/
theorem rotateLeft_getLsbD_sub {i : Nat} (hn : n < W) (hi : i < W) :
    (rotateLeft W a n).getLsbD i = a.getLsbD (((i : Int) - n) % (W : Int)).toNat := by
  have place : ((i : Int) - n) % (W : Int) = ((i + (W - n)) % W : Nat) := by
    calc ((i : Int) - n) % (W : Int)
        = ((i : Int) - n + W) % (W : Int) := (Int.add_emod_right ..).symm
      _ = ((i + (W - n)) % W : Nat) := by rw [Int.natCast_mod]; congr 1; omega
  rw [rotateLeft_getLsbD a hn hi, place, Int.toNat_natCast]

theorem popcount_eq_count_of_getLsbD {p : Nat → Bool} (h : ∀ i < W, a.getLsbD i = p i) :
    popcount a = Nat.count (fun i => p i) W := by
  rw [popcount, Nat.count, List.countP_eq_length_filter]
  congr 1
  exact List.filter_congr fun i hi => by simp [h i (List.mem_range.mp hi)]

/-- A window of one period counts the same wherever it begins. -/
theorem count_add_right_of_periodic {p : Nat → Bool} (hp : ∀ i, p (W + i) = p i) (n : Nat) :
    Nat.count (fun i => p (i + n)) W = Nat.count (fun i => p i) W := by
  have shifted := Nat.count_add' (fun i => p i) W n
  have whole := Nat.count_add (fun i => p i) W n
  simp only [hp] at whole
  omega

/-- R136 (d): read on modulo the width, the bits from `n` to `n + W` are those from 0 to `W`. -/
theorem popcount_rotateRight (hn : n < W) : popcount (rotateRight W a n) = popcount a := by
  have periodic (i : Nat) : a.getLsbD ((W + i) % W) = a.getLsbD (i % W) := by rw [Nat.add_mod_left]
  calc popcount (rotateRight W a n)
      = Nat.count (fun i => a.getLsbD ((i + n) % W)) W :=
        popcount_eq_count_of_getLsbD _ fun i => rotateRight_getLsbD a hn
    _ = Nat.count (fun i => a.getLsbD (i % W)) W :=
        count_add_right_of_periodic (p := fun i => a.getLsbD (i % W)) periodic n
    _ = popcount a :=
        (popcount_eq_count_of_getLsbD a fun i hi => by rw [Nat.mod_eq_of_lt hi]).symm

end Rotate

/-! ## The obligations -/

/-- Settles O20, by `rotateRight_toNat` and `rotateRight_getLsbD` at the reduced amount. -/
theorem rotrRotatesRight : Obligations.RotrRotatesRight := by
  intro w s
  have word : BitVec.ofNat 16 (0x5000 + w.select.toNat * 0x400) = descriptor 5 w.select 0 :=
    ofNat_eq_descriptor rfl
  rw [word, toInt_emod_eq_rotateAmount (width_dvd w), Int.toNat_natCast]
  exact ⟨decodeLine_descriptor_rotr w, _, exec_rotr s, rotateRight_toNat _ _,
    fun i => rotateRight_getLsbD _ (rotateAmount_lt _ (width_pos w))⟩

/-- Settles O21, by `rotateLeft_toNat` and `rotateLeft_getLsbD_sub` at the reduced amount. -/
theorem rotlRotatesLeft : Obligations.RotlRotatesLeft := by
  intro w s
  have word : BitVec.ofNat 16 (0x6000 + w.select.toNat * 0x400) = descriptor 6 w.select 0 :=
    ofNat_eq_descriptor rfl
  rw [word, toInt_emod_eq_rotateAmount (width_dvd w), Int.toNat_natCast]
  exact ⟨decodeLine_descriptor_rotl w, _, exec_rotl s, rotateLeft_toNat _ _,
    fun i => rotateLeft_getLsbD_sub _ (rotateAmount_lt _ (width_pos w))⟩

/-- Settles O22: both readings have the remainder `rotateAmount` (`toInt_emod_eq_rotateAmount`), and the results read
no more of the amount. -/
theorem rotateAmountIsReducedModuloTheWidth : Obligations.RotateAmountIsReducedModuloTheWidth := by
  intro w s b'
  have hlt : rotateAmount w.bits s.b < w.bits := rotateAmount_lt s.b (width_pos w)
  have signed := toInt_emod_eq_rotateAmount (width_dvd w) s.b
  refine ⟨?_, signed, fun (heq : rotateAmount w.bits s.b = rotateAmount w.bits b') => ?_⟩
  · rw [signed]
    omega
  · simp [heq]

/-- Settles O23, by `rotateRight_zero` and `rotateLeft_zero`. -/
theorem rotateByMultipleOfWidthIsIdentity : Obligations.RotateByMultipleOfWidthIsIdentity := by
  intro w s h
  have hzero : rotateAmount w.bits s.b = 0 := by
    exact_mod_cast (toInt_emod_eq_rotateAmount (width_dvd w) s.b).symm.trans h
  rw [exec_rotr, exec_rotl, hzero, rotateRight_zero, rotateLeft_zero _ (width_pos w)]
  exact ⟨rfl, rfl⟩

/-- Settles O24: the round trips are `rotateLeft_rotateRight` and `rotateRight_rotateLeft`, and the amounts 0 and `W`
reduce to 0. -/
theorem rotationRoundTrip : Obligations.RotationRoundTrip := by
  intro w s
  have hlt : rotateAmount w.bits s.b < w.bits := rotateAmount_lt s.b (width_pos w)
  refine ⟨⟨_, exec_rotr s, ?_⟩, ⟨_, exec_rotl s, ?_⟩, ?_, ?_⟩
  · rw [result_rotl, aPort_with_a, rotateLeft_rotateRight _ hlt]
  · rw [result_rotr, aPort_with_a, rotateRight_rotateLeft _ hlt]
  · rw [result_rotr, aPort_with_b, rotateAmount_zero, rotateRight_zero]
  · rw [result_rotr, aPort_with_b, rotateAmount_width (width_dvd w), rotateRight_zero]

/-- Settles O25: for (a) and (e) the two amounts sum to a multiple of the width, (b) and (c) add reduced amounts, and
(d) is `popcount_rotateRight`. -/
theorem rotationLaws : Obligations.RotationLaws := by
  intro w s p q
  have hdvd := width_dvd w
  have hlt (b : BitVec 32) : rotateAmount w.bits b < w.bits := rotateAmount_lt b (width_pos w)
  have left_eq_right {b b' : BitVec 32} (h : rotateAmount w.bits (b + b') = 0) :
      result (.rotl w) { s with b := b } = result (.rotr w) { s with b := b' } := by
    rw [rotateAmount_add hdvd] at h
    simp [rotateLeft_eq_rotateRight _ (hlt b) (hlt b') h]
  refine ⟨left_eq_right ?_, left_eq_right ?_, ?_, ⟨_, result_rotr _ w, ?_, popcount_rotateRight _ (hlt p)⟩,
    (left_eq_right ?_).symm⟩
  · rw [BitVec.add_right_neg]
    exact rotateAmount_zero
  · rw [rotateAmount_add hdvd, rotateAmount_ofNat hdvd]
    exact add_sub_mod_mod_self (hlt p)
  · simp [rotateAmount_add hdvd, rotateAmount_width hdvd, Nat.mod_eq_of_lt (hlt p)]
  · rw [result_rotr, result_rotr, aPort_with_a { s with b := q }, aPort_with_b s p,
      aPort_with_b s (p + q), rotateRight_rotateRight _ (hlt p) (hlt q), rotateAmount_add hdvd]
  · cases w <;> decide

end Sys2Proof.Machine

/-! The statements of 43_bcd.md: the increment (R140 to R142), its literal datapath (R143), and the decimal successor
(R144). -/

namespace Sys2Proof

theorem decodeLine_incbcd : decodeLine [0x7000] = .ok .incbcd :=
  decodeLine_of_decode_ok (decode_of_spells rfl (.incbcd rfl rfl rfl))

end Sys2Proof

namespace Sys2Proof.Machine

theorem exec_incbcd (s : State) : exec .incbcd s = .next { s with y := ⟨8, incBcd (s.aPort .w8)⟩ } := rfl

/-! ## The digits of a byte as quotient and remainder by 16 -/

section Digits
variable {a : BitVec 8}

/-- R141. -/
theorem bcdValid_iff : bcdValid a = true ↔ a.toNat / 16 ≤ 9 ∧ a.toNat % 16 ≤ 9 := by
  have high : a.toNat / 16 % 16 = a.toNat / 16 := by omega
  simp [bcdValid, BitVec.extractLsb'_toNat, Nat.shiftRight_eq_div_pow, high]

theorem bcdAddend_eq_ite : bcdAddend a = if a.toNat % 16 = 9 then 7 else 1 := by
  simp [bcdAddend, ← BitVec.toNat_inj, BitVec.extractLsb'_toNat]

/-- The value of R140. Two decimal digits are at most 0x99, so the sum stays in the byte (R164 c). -/
theorem toNat_incBcd (hvalid : bcdValid a = true) (hne : a ≠ 0x99) :
    (incBcd a).toNat = if a.toNat % 16 = 9 then a.toNat + 7 else a.toNat + 1 := by
  obtain ⟨high, -⟩ := bcdValid_iff.mp hvalid
  rw [incBcd_inside hvalid hne, bcdAddend_eq_ite, BitVec.toNat_add]
  split
  · exact Nat.mod_eq_of_lt (show a.toNat + 7 < 256 by omega)
  · exact Nat.mod_eq_of_lt (show a.toNat + 1 < 256 by omega)

/-- R144 (c): below 9 the low digit alone counts up. -/
theorem digits_incBcd_of_ne_nine (hvalid : bcdValid a = true) (hne : a ≠ 0x99) (h9 : a.toNat % 16 ≠ 9) :
    (incBcd a).toNat / 16 = a.toNat / 16 ∧ (incBcd a).toNat % 16 = a.toNat % 16 + 1 := by
  obtain ⟨-, low⟩ := bcdValid_iff.mp hvalid
  rw [toNat_incBcd hvalid hne, if_neg h9]
  omega

/-- R144 (c): at 9 the low digit starts again and carries. -/
theorem digits_incBcd_of_eq_nine (hvalid : bcdValid a = true) (hne : a ≠ 0x99) (h9 : a.toNat % 16 = 9) :
    (incBcd a).toNat / 16 = a.toNat / 16 + 1 ∧ (incBcd a).toNat % 16 = 0 := by
  rw [toNat_incBcd hvalid hne, if_pos h9]
  omega

/-- R144 (a): a high digit that takes a carry is not 9, as 0x99 is outside. -/
theorem bcdValid_incBcd (hvalid : bcdValid a = true) (hne : a ≠ 0x99) : bcdValid (incBcd a) = true := by
  obtain ⟨high, low⟩ := bcdValid_iff.mp hvalid
  have hmax : a.toNat ≠ 0x99 := BitVec.toNat_ne_iff_ne.mpr hne
  rw [bcdValid_iff]
  by_cases h9 : a.toNat % 16 = 9
  · have digits := digits_incBcd_of_eq_nine hvalid hne h9
    omega
  · have digits := digits_incBcd_of_ne_nine hvalid hne h9
    omega

/-- R144 (b). -/
theorem decimal_incBcd (hvalid : bcdValid a = true) (hne : a ≠ 0x99) :
    10 * ((incBcd a).toNat / 16) + (incBcd a).toNat % 16 = 10 * (a.toNat / 16) + a.toNat % 16 + 1 := by
  by_cases h9 : a.toNat % 16 = 9
  · have digits := digits_incBcd_of_eq_nine hvalid hne h9
    omega
  · have digits := digits_incBcd_of_ne_nine hvalid hne h9
    omega

end Digits

/-! ## The walk from 0x00 to 0x99 (R144 d) -/

/-- Every byte of the walk is a BCD byte and stands for the number of increments, so it is not 0x99 before the 99th:
`bcdValid_incBcd` and `decimal_incBcd` carry both on. -/
theorem bcdValid_and_decimal_iterate_incBcd {n : Nat} (hn : n ≤ 99) :
    bcdValid (incBcd^[n] 0) = true ∧ 10 * ((incBcd^[n] 0).toNat / 16) + (incBcd^[n] 0).toNat % 16 = n := by
  induction n with
  | zero => decide
  | succ n ih =>
    obtain ⟨hvalid, hval⟩ := ih (by omega)
    have hmax : (incBcd^[n] 0).toNat ≠ 0x99 := by omega
    have hne : incBcd^[n] 0 ≠ 0x99 := BitVec.toNat_ne_iff_ne.mp hmax
    rw [Function.iterate_succ_apply', decimal_incBcd hvalid hne, hval]
    exact ⟨bcdValid_incBcd hvalid hne, rfl⟩

/-! ## The obligations -/

/-- Settles O26, by `toNat_incBcd` and `incBcd_outside`. -/
theorem incbcdIncrementsTheDigits : Obligations.IncbcdIncrementsTheDigits := by
  intro s a valid
  refine ⟨decodeLine_incbcd, fun hvalid hne => ⟨_, exec_incbcd s, ?_⟩, fun hout => ?_⟩
  · exact toNat_incBcd (bcdValid_iff.mpr hvalid) (BitVec.toNat_ne_iff_ne.mp hne)
  · have outside : bcdValid a = false ∨ a = 0x99 :=
      hout.imp (fun h => Bool.eq_false_iff.mpr (mt bcdValid_iff.mp h)) BitVec.eq_of_toNat_eq
    rw [exec_incbcd, incBcd_outside outside]

/-- Settles O27: (a) to (c) are the laws of one increment, and the two digits of the walk's byte are those of `n`, as
the low one is a decimal digit. -/
theorem incbcdIsTheDecimalSuccessor : Obligations.IncbcdIsTheDecimalSuccessor := by
  refine ⟨fun s hvalid hne => ⟨exec_incbcd s, bcdValid_incBcd hvalid hne, decimal_incBcd hvalid hne,
    digits_incBcd_of_ne_nine hvalid hne, digits_incBcd_of_eq_nine hvalid hne⟩, fun n hn => ?_⟩
  obtain ⟨hvalid, hval⟩ := bcdValid_and_decimal_iterate_incBcd hn
  obtain ⟨-, low⟩ := bcdValid_iff.mp hvalid
  exact ⟨by omega, hvalid⟩

/-- Settles O28, by `bcdAddend_eq_ite` and `incBcd_inside`; the listed candidates are evaluated. -/
theorem bcdDatapathAgreesInsideTheDomain : Obligations.BcdDatapathAgreesInsideTheDomain := by
  refine ⟨fun a => ?_, fun a => incBcd_inside, ?_⟩
  · rw [dpBcd, bcdAddend_eq_ite]
  · decide

end Sys2Proof.Machine

/-! The statements of 44_static_for.md: the table of a function over a range (R154). -/

namespace Sys2Proof.Machine

/-! ## A function mapped over the invocation trace -/

section Trace
variable {first last : Int}

theorem map_indices_getElem? {α : Type} (f : Int → α) {j : Nat} (h : j < ((indices first last).map f).length) :
    ((indices first last).map f)[j]? = some (f (first + (j : Int))) := by
  rw [List.length_map, indices_length] at h
  rw [List.getElem?_map, indices_getElem? h, Option.map_some]

theorem flatMap_indices {α : Type} (g : Int → List α) :
    (indices first last).flatMap g = (List.range (last - first).toNat).flatMap fun (j : Nat) => g (first + (j : Int)) :=
  List.flatMap_map ..

/-- R154 over any type of entries. -/
theorem unroll_appendEntry {α : Type} (f : Int → α) :
    unroll (appendEntry f) first last [] = (indices first last).map f := by
  rw [unroll, foldl_appendEntry, List.nil_append]

/-- STATICFOR with the callback of TABLE. It starts from the empty list, so what was left before plays no part. -/
theorem exec_staticfor_tableOf {x : CbTerm} {f : Int → Data} {g : Int → List Line} (hf : ∀ i st, x.eval i st = f i)
    (hg : ∀ i st, x.lines i st = g i) {k : BitVec 8} {s : State} (hle : first ≤ last)
    (hk : s.cbtab.lookup k = some (tableOf x)) :
    exec (.staticfor k first last) s =
      .next (s.elaborate true
        ⟨.datum (Data.ofList ((indices first last).map f)), (indices first last).flatMap g⟩) := by
  have left := unroll_appendTerm (cb := tableOf x) rfl rfl rfl f hf g hg first last s.leftBefore
  rw [exec_staticfor hle, callbackOf_listed hk]
  exact congrArg (fun st => Host.Outcome.next (s.elaborate true st)) left

end Trace

/-! ## The obligation -/

/-- Settles O31: both tables are `f` mapped over the invocation trace (`unroll_appendEntry`,
`exec_staticfor_tableOf`), whose entry `j` is `f (first + j)` (`map_indices_getElem?`). -/
theorem tableHoldsOneEntryPerIndex : Obligations.TableHoldsOneEntryPerIndex := by
  constructor
  · intro α f first last _
    rw [unroll_appendEntry]
    exact ⟨by simp, fun _ => map_indices_getElem? f⟩
  · intro x f g hf hg k first last s hle hk
    refine ⟨(indices first last).map f, by simp, fun _ => map_indices_getElem? f, ?_⟩
    rw [exec_staticfor_tableOf hf hg hle hk, flatMap_indices]
    rfl

end Sys2Proof.Machine

/-! The statements of 30_encoding.md sections 1, 2 and 5: the two round trips between instructions and descriptors
(R61 to R66), and words written out from the opcode table (R74). -/

namespace Sys2Proof

/-! ## What a well-formed instruction is -/

theorem wf_iff {i : Instr} : i.wf = true ↔ i.violation = none ∧ i.spellable = true := by
  simp [Instr.wf]

theorem ones_wf_iff {w : Width} {k : Nat} : (Instr.ones w k).wf = true ↔ k ≤ w.bits ∧ k < 256 := by
  simp [wf_iff, Instr.violation, Instr.spellable]

theorem staticfor_wf_iff {k : BitVec 8} {first last : Int} : (Instr.staticfor k first last).wf = true ↔
    first ≤ last ∧ boundFits first = true ∧ boundFits last = true := by
  simp [wf_iff, Instr.violation, Instr.spellable]

theorem bitcast_wf_iff {target source : Width} : (Instr.bitcast target source).wf = true ↔ target = source := by
  simp [wf_iff, Instr.violation, Instr.spellable]

/-! ## BITCAST's immediate: the size select of the source type in `k[1:0]`, zeros above (R64) -/

section SizeSelect
variable {k : BitVec 8} {ws : BitVec 2}

theorem toNat_setWidth_eight (ws : BitVec 2) : (ws.setWidth 8).toNat = ws.toNat :=
  BitVec.toNat_setWidth_of_le (by decide)

theorem setWidth_eq_of_extractLsb' (h0 : k.extractLsb' 2 6 = 0) (h : k.extractLsb' 0 2 = ws) :
    ws.setWidth 8 = k := by
  rw [extractLsb'_two_six_eq_zero_iff] at h0
  rw [extractLsb'_zero_two_eq_iff] at h
  apply BitVec.eq_of_toNat_eq
  rw [toNat_setWidth_eight]
  omega

theorem extractLsb'_two_six_setWidth : (ws.setWidth 8).extractLsb' 2 6 = 0 := by
  have hlt := ws.isLt
  rw [extractLsb'_two_six_eq_zero_iff, toNat_setWidth_eight]
  omega

theorem extractLsb'_zero_two_setWidth : (ws.setWidth 8).extractLsb' 0 2 = ws := by
  have hlt := ws.isLt
  rw [extractLsb'_zero_two_eq_iff, toNat_setWidth_eight]
  omega

end SizeSelect

/-! ## The two round trips -/

theorem decode_descriptor_staticfor {k : BitVec 8} {e1 e2 : Halfword} (rest : List Halfword)
    (hle : e1.toInt ≤ e2.toInt) :
    decode (descriptor 8 0 k :: e1 :: e2 :: rest) = .ok (.staticfor k e1.toInt e2.toInt, rest) := by
  rw [decode_staticfor (by simp) (by simp), decodeStaticfor_of_le (by simp) hle, kField_descriptor]

/-- Well-formedness is what the decoder needs of an instruction to read it from its own encoding. -/
theorem decode_encode {i : Instr} (rest : List Halfword) (h : i.wf = true) :
    decode (encode i ++ rest) = .ok (i, rest) := by
  cases i with
  | ones w k =>
    obtain ⟨hk, hlt⟩ := ones_wf_iff.mp h
    have hn : (BitVec.ofNat 8 k).toNat = k := Nat.mod_eq_of_lt hlt
    have hle : (BitVec.ofNat 8 k).toNat ≤ w.bits := hn.symm ▸ hk
    simp [encode, decode_ones, decodeOnes_of_le hle, hn]
  | getbit w => simp [encode, decode_getbit, decodePlain_of_eq]
  | getbits w => simp [encode, decode_getbits, decodePlain_of_eq]
  | isbitset w => simp [encode, decode_isbitset, decodePlain_of_eq]
  | sext16 => exact decode_of_spells (by simp) (.sext16 (by simp) (by simp) (by simp))
  | sext32 => exact decode_of_spells (by simp) (.sext32 (by simp) (by simp) (by simp))
  | rotr w => simp [encode, decode_rotr, decodePlain_of_eq]
  | rotl w => simp [encode, decode_rotl, decodePlain_of_eq]
  | incbcd => exact decode_of_spells (by simp) (.incbcd (by simp) (by simp) (by simp))
  | staticfor k first last =>
    obtain ⟨hle, hf, hl⟩ := staticfor_wf_iff.mp h
    have hf := Machine.toInt_ofInt_of_boundFits hf
    have hl := Machine.toInt_ofInt_of_boundFits hl
    have hle : (BitVec.ofInt 16 first).toInt ≤ (BitVec.ofInt 16 last).toInt := by rwa [hf, hl]
    have hd := decode_descriptor_staticfor (k := k) rest hle
    rwa [hf, hl] at hd
  | bitcast target source =>
    obtain rfl := bitcast_wf_iff.mp h
    simp [encode, decode_bitcast, decodeBitcast_of_eq extractLsb'_two_six_setWidth extractLsb'_zero_two_setWidth]

section
variable {d : Halfword} {rest r : List Halfword} {i : Instr}

theorem wf_of_spells (h : Spells d rest i r) : i.wf = true := by
  cases h with
  | ones hop hk => exact ones_wf_iff.mpr ⟨hk, (kField d).isLt⟩
  | staticfor hop hws hle => exact staticfor_wf_iff.mpr ⟨hle, boundFits_toInt _, boundFits_toInt _⟩
  | bitcast hop h0 hk => exact bitcast_wf_iff.mpr rfl
  | getbit | getbits | isbitset | sext16 | sext32 | rotr | rotl | incbcd => rfl

/-- The fields that spell an operation, with the reserved bits, make up the whole halfword, so encoding what they spell
gives it back. -/
theorem encode_of_spells (hz : zField d = 0) (h : Spells d rest i r) : encode i ++ r = d :: rest := by
  have fields {op : BitVec 4} {ws : BitVec 2} {k : BitVec 8} {e : List Halfword} (hop : opField d = op)
      (hws : wsField d = ws) (hk : kField d = k) : descriptor op ws k :: e = d :: e := by
    rw [← hop, ← hws, ← hk, descriptor_fields d hz]
  have width := (select_ofSelect (wsField d)).symm
  cases h with
  | ones hop hk => exact fields hop width (by simp)
  | getbit hop hk | getbits hop hk | isbitset hop hk | rotr hop hk | rotl hop hk => exact fields hop width hk
  | sext16 hop hws hk | sext32 hop hws hk | incbcd hop hws hk => exact fields hop hws hk
  | staticfor hop hws hle =>
    rw [encode, BitVec.ofInt_toInt, BitVec.ofInt_toInt]
    exact fields hop hws rfl
  | bitcast hop h0 hk =>
    refine fields hop width ?_
    rw [← width, setWidth_eq_of_extractLsb' h0 hk]

end

/-! ## The obligations -/

/-- Settles O7, by `decode_encode`. -/
theorem decodeOfEncodeIsTheInstruction : Obligations.DecodeOfEncodeIsTheInstruction :=
  fun _ => decode_encode

/-- Settles O8: what decodes is spelled by the fields of its first halfword (`spells_of_decode`). -/
theorem encodeOfDecodeIsTheWords : Obligations.EncodeOfDecodeIsTheWords := by
  intro words rest i h
  cases words with
  | nil => cases h
  | cons d words =>
    have hs := spells_of_decode h
    exact ⟨wf_of_spells hs, encode_of_spells (zField_of_decode_ok h) hs⟩

/-- Settles O2: sixteen closed words, evaluated. -/
theorem listedDescriptorsDecode : Obligations.ListedDescriptorsDecode := by
  unfold Obligations.ListedDescriptorsDecode
  decide

end Sys2Proof

/-! The statements of 45_bitcast.md: the pattern passes (R160, R162), byte by byte as well (20_memory.md R45), and comes
back (R163). -/

namespace Sys2Proof

theorem decodeLine_descriptor_bitcast (w : Width) :
    decodeLine [descriptor 9 w.select (w.select.setWidth 8)] = .ok (.bitcast w w) :=
  decodeLine_of_decode_ok (decode_encode (i := .bitcast w w) [] (bitcast_wf_iff.mpr rfl))

theorem decodeLine_descriptor_bitcast_mismatch {target source : Width} (h : target ≠ source) :
    decodeLine [descriptor 9 target.select (source.select.setWidth 8)] = .error .bv2 := by
  have hne : source.select ≠ target.select := fun he => h (by rw [← ofSelect_select target, ← he, ofSelect_select])
  apply decodeLine_of_decode_error
  simp [decode_bitcast, decodeBitcast_mismatch extractLsb'_two_six_setWidth
    (extractLsb'_zero_two_setWidth.trans_ne hne)]

end Sys2Proof

namespace Sys2Proof.Machine

/-- No strategy stands on the right: both copy the pattern (45_bitcast.md R162). -/
theorem exec_bitcast (w : Width) (s : State) : exec (.bitcast w w) s = .next (s.setY (s.aPort w)) := by
  rw [exec, execBitcast, if_neg (not_not_intro rfl), bitCast_eq _ _ (eight_dvd_width w)]

theorem exec_bitcast_of_ne {target source : Width} (h : target ≠ source) (s : State) :
    exec (.bitcast target source) s = .refused (.build .bv2) := if_pos h

/-! ## The obligations -/

/-- Settles O34: the descriptor's `k` is the select of the source (`ofNat_eq_descriptor`), and the next state by either
strategy is `exec_bitcast`. -/
theorem bitcastPassesTheBits : Obligations.BitcastPassesTheBits := by
  intro target source s
  rw [ofNat_eq_descriptor (op := 9) (ws := target.select) (k := source.select.setWidth 8)
    (by rw [toNat_setWidth_eight]; rfl)]
  refine ⟨?_, fun hne => ⟨decodeLine_descriptor_bitcast_mismatch hne, exec_bitcast_of_ne hne s⟩⟩
  rintro rfl
  exact ⟨decodeLine_descriptor_bitcast target, exec_bitcast target s, fun _ => exec_bitcast target _⟩

/-- Settles O35, by `bitCast_eq`. -/
theorem byteCopyIsTheIdentity : Obligations.ByteCopyIsTheIdentity := by
  intro n a
  have h := bitCast_eq .bytecopy a (Nat.dvd_mul_right 8 n)
  exact ⟨h, fun j _ => by rw [h]⟩

/-- Settles O36: what the second cast finds on its port is the first one's result (`aPort_with_a`). -/
theorem bitcastRoundTrip : Obligations.BitcastRoundTrip := by
  intro w s
  refine ⟨s.aPort w, exec_bitcast w s, ?_⟩
  rw [result_bitcast, if_pos rfl, aPort_with_a]

end Sys2Proof.Machine

/-! The statements of 44_static_for.md about one STATICFOR: the callback `collect` (R152), an elaboration state of any
type (R152), and program P3's table of masks (R153, R154). -/

namespace Sys2Proof.Machine

/-- The ONES line of each index, as P3's callback creates them. -/
theorem exec_staticfor_onesTable {w : Width} {k : BitVec 8} {first last : Int} {s : State}
    (hle : first ≤ last) (hk : s.cbtab.lookup k = some (onesTable w)) :
    exec (.staticfor k first last) s =
      .next (s.elaborate true
        ⟨.datum (Data.ofList ((indices first last).map fun i => .word (onesValue w i))),
          (indices first last).map (onesLine w)⟩) := by
  rw [exec_staticfor_tableOf (f := fun i => .word (onesValue w i)) (g := fun i => [onesLine w i])
    (fun _ _ => rfl) (fun _ _ => rfl) hle hk, List.map_eq_flatMap (f := onesLine w)]

theorem callbackOf_unlisted {cbtab : List (BitVec 8 × Callback)} {k : BitVec 8} (h : cbtab.lookup k = none) :
    callbackOf cbtab k = ⟨.started k, openBody k, Config.callbackTable k⟩ := by
  simp [callbackOf, h]

theorem mem_indices {first last i : Int} : i ∈ indices first last ↔ first ≤ i ∧ i < last := by
  simp only [indices, List.mem_map, List.mem_range]
  constructor
  · rintro ⟨j, hj, rfl⟩
    omega
  · rintro ⟨h1, h2⟩
    exact ⟨(i - first).toNat, by omega, by omega⟩

/-- Lines of created ONES instances hold no STATICFOR. -/
theorem splitStaticFor_map_onesLine (w : Width) (is : List Int) : splitStaticFor (is.map (onesLine w)) = none := by
  rw [splitStaticFor_none]
  intro l hl
  obtain ⟨i, -, rfl⟩ := List.mem_map.mp hl
  exact onesLine_isStaticForLine w i

/-! ## The obligations -/

/-- Settles O30: `collect` starts from the empty list, appends the index and creates no line (`unroll_appendTerm`). -/
theorem collectGathersTheIndices : Obligations.CollectGathersTheIndices := by
  intro k first last s hle hk
  have left := unroll_appendTerm (cb := collect) rfl rfl rfl Data.int (fun _ _ => rfl) (fun _ => []) (fun _ _ => rfl)
    first last s.leftBefore
  refine ⟨(indices first last).map Data.int, by simp, fun _ => map_indices_getElem? Data.int, ?_⟩
  rw [exec_staticfor hle, callbackOf_listed hk, left]
  simp [State.elaborate, collect]

/-- Settles O32. A callback that is not listed is held as its invocations, which any type reads
(`foldl_openBody_inType`); one over St goes through its representation (`unroll_transport`). -/
theorem staticforRunsOverAnyElaborationState : Obligations.StaticforRunsOverAnyElaborationState := by
  constructor
  · intro St ofData start cb k first last s hle hk
    refine ⟨_, _, exec_staticfor hle s, rfl, ?_⟩
    rw [callbackOf_unlisted hk]
    exact foldl_openBody_inType ofData start cb k (indices first last) _
  · intro St represent cb k st0 first last s hle hstart hbody
    have left := unroll_transport (fun st => ElabState.mk (represent st) []) cb (callbackOf s.cbtab k).body
      (fun i st => hbody i st []) first last st0
    refine ⟨_, exec_staticfor hle s, ?_, ?_⟩ <;> simp only [hstart, left, elaborate_created, elaborate_elaboration,
      List.append_nil]

/-- Settles O33: entry and line `j` are the mask and the ONES of index `first + j`, which is within 0 to `W`. -/
theorem maskTableCreatesOneInstancePerIndex : Obligations.MaskTableCreatesOneInstancePerIndex := by
  intro k w first last s h0 hle hW hk
  refine ⟨_, _, exec_staticfor_onesTable hle hk, by simp, by simp, splitStaticFor_map_onesLine w _, fun j hj => ?_⟩
  have lo : 0 ≤ first + (j : Int) := by omega
  have hi : first + (j : Int) ≤ w.bits := by omega
  have hn : (first + (j : Int)).toNat = first.toNat + j := by omega
  constructor
  · refine ⟨mask w.bits (first.toNat + j), ?_, mask_toNat (by omega)⟩
    rw [map_indices_getElem? _ (by simpa using hj), onesValue_inside w lo hi, hn]
  · refine ⟨onesLine w (first + (j : Int)), map_indices_getElem? _ (by simpa using hj), ?_⟩
    rw [onesLine_decodes w lo hi, hn]

end Sys2Proof.Machine

/-! The statements of 70_reset_and_hazards.md R191 about one step: a STATICFOR unrolled in place, the build check, and
the decoded instruction run. -/

namespace Sys2Proof.Machine

/-! ## Which line is unrolled -/

section Select
variable {before after : List Line} {l : Line}

theorem splitStaticFor_append (hb : ∀ m ∈ before, isStaticForLine m = false) (hl : isStaticForLine l = true) :
    splitStaticFor (before ++ l :: after) = some (before, l, after) := by
  induction before with
  | nil => simp [splitStaticFor, hl]
  | cons m before ih =>
    obtain ⟨hm, hb⟩ := List.forall_mem_cons.mp hb
    simp [splitStaticFor, hm, ih hb]

theorem isStaticForLine_of_isStatic {i : Instr} (hi : decodeLine l.words = .ok i) (hst : i.isStatic = true) :
    isStaticForLine l = true := by
  by_contra hl
  have := (decodeLine_runtime (by simpa using hl) hi).1
  simp [this] at hst

theorem isStaticForLine_of_not_isStatic {i : Instr} (hi : decodeLine l.words = .ok i) (hst : i.isStatic = false) :
    isStaticForLine l = false := by
  by_contra hl
  obtain ⟨k, first, last, rfl, -⟩ := decodeLine_staticfor (by simpa using hl) hi
  cases hst

end Select

/-- A STATICFOR that decodes is unrolled in place of its line, whatever that leaves. -/
theorem step_staticfor {s : State} {before after : List Line} {l : Line} {k : BitVec 8} {first last : Int}
    (hn : s.netlist = before ++ l :: after) (hb : ∀ m ∈ before, isStaticForLine m = false)
    (hi : decodeLine l.words = .ok (.staticfor k first last)) :
    step s = onNext (exec (.staticfor k first last) { s with netlist := before ++ after })
      (placeCreated before after) :=
  step_unrolls (hn ▸ splitStaticFor_append hb (isStaticForLine_of_isStatic hi rfl)) hi

/-- The bounds of a STATICFOR that decodes are in order (R67 WF5). -/
theorem le_of_decodeLine_staticfor {l : Line} {k : BitVec 8} {first last : Int}
    (hi : decodeLine l.words = .ok (.staticfor k first last)) : first ≤ last := by
  obtain ⟨k', first', last', heq, hle⟩ := decodeLine_staticfor (isStaticForLine_of_isStatic hi rfl) hi
  cases heq
  exact hle

/-! ## The build check -/

section Check
variable {s : State}

theorem checkInstances_some {ls : List Line} {r : Refusal} (h : checkInstances ls = some r) :
    ∃ l ∈ ls, ∃ v, decodeLine l.words = .error v ∧ r = .build v := by
  induction ls with
  | nil => cases h
  | cons l ls ih =>
    rw [checkInstances] at h
    split at h
    · next v hv => exact ⟨l, by simp, v, hv, by simpa [eq_comm] using h⟩
    · obtain ⟨m, hm, hv⟩ := ih h
      exact ⟨m, by simp [hm], hv⟩

theorem buildCheck_of_wellFormed (h : checkInstances s.netlist = none) :
    buildCheck s = checkWiring (s.inputs.map Prod.fst) s.netlist := by
  rw [buildCheck, h]

theorem step_refused (hs : splitStaticFor s.netlist = none) {r : Refusal} (hb : buildCheck s = some r) :
    step s = .refused r := by
  simp [step, hs, hb]

/-- An ill-formed line refuses the whole build, by the name of one (60_exceptions.md R172, R176). -/
theorem step_refused_of_illFormed (hs : splitStaticFor s.netlist = none) {l : Line} {v : BuildViolation}
    (hl : l ∈ s.netlist) (hv : decodeLine l.words = .error v) :
    ∃ m ∈ s.netlist, ∃ v', decodeLine m.words = .error v' ∧ step s = .refused (.build v') := by
  cases hc : checkInstances s.netlist with
  | none =>
    obtain ⟨i, hi⟩ := (checkInstances_none _).mp hc l hl
    simp [hi] at hv
  | some r =>
    obtain ⟨m, hm, v', hv', rfl⟩ := checkInstances_some hc
    exact ⟨m, hm, v', hv', step_refused hs (by rw [buildCheck, hc])⟩

end Check

/-! ## The line that is run -/

theorem evaluate_line {s : State} {n : Nat} {l : Line} {i : Instr} (hl : s.netlist[n]? = some l)
    (hi : decodeLine l.words = .ok i) :
    evaluate s n = onNext (exec i (present l i (wiresBefore s n) s)) (retire s) := by
  rw [evaluate, hl]
  simp [hi]

/-- One line without wires, once it decodes to a run-time operation, is a built design. -/
theorem built_signalLine {s : State} {words : List Halfword} {i : Instr} (hn : s.netlist = [signalLine words])
    (hi : decodeLine words = .ok i) (hst : i.isStatic = false) : s.Built := by
  have hl : isStaticForLine (signalLine words) = false := isStaticForLine_of_not_isStatic hi hst
  refine ⟨?_, buildCheck_none.mpr ⟨?_, ?_⟩⟩ <;> rw [hn]
  · simpa [splitStaticFor_none] using hl
  · simpa [checkInstances_none] using ⟨i, hi⟩
  · rfl

/-- The run-time operation of a design that is one such line is run on the caller's signals. -/
theorem step_signalLine {s : State} {words : List Halfword} {i : Instr} (hn : s.netlist = [signalLine words])
    (hc : s.calls = []) (hi : decodeLine words = .ok i) (hst : i.isStatic = false) :
    step s = exec i { s with elaboration := none } := by
  have hb := built_signalLine hn hi hst
  have hcall : s.nextCall = some (0, []) := by simp [State.nextCall, hc, hn]
  have hrun : s.running [] = { s with elaboration := none } := by rw [State.running, ← hc]
  obtain ⟨-, hv⟩ := decodeLine_runtime ((splitStaticFor_none _).mp hb.1 (signalLine words) (by simp [hn])) hi
  obtain ⟨n, v, hx⟩ := exec_runtime hst hv (s.running [])
  rw [step_evaluates hb hcall, evaluate_line (i := i) (by rw [running_netlist, hn]; rfl) hi, present_signalLine,
    ← hrun, hx]
  rfl

theorem decodeLine_of_decodeTableWord {nbits w : Nat} {i : Instr} (h : decodeTableWord nbits w = some i) :
    decodeLine (tableHalfwords nbits w) = .ok i := by
  rw [decodeTableWord] at h
  cases hd : decodeLine (tableHalfwords nbits w) with
  | error v => rw [hd] at h; cases h
  | ok j => rw [hd] at h; cases h; rfl

/-! ## A table with an oversized mask -/

theorem eq_bv1_of_onesLine_refused {w : Width} {k : Int} {v : BuildViolation}
    (h : decodeLine (onesLine w k).words = .error v) : v = .bv1 := by
  by_cases hk : 0 ≤ k ∧ k ≤ w.bits
  · rw [onesLine_decodes w hk.1 hk.2] at h
    cases h
  · rw [onesLine_refused w (by omega)] at h
    cases h
    rfl

/-- A range that begins below 0 or ends above `W + 1` has its first or its last index outside 0 to `W`. -/
theorem exists_mem_indices_outside {first last W : Int} (hlt : first < last) (h : first < 0 ∨ W + 1 < last) :
    ∃ i ∈ indices first last, i < 0 ∨ W < i := by
  obtain hneg | hover := h
  · exact ⟨first, mem_indices.mpr ⟨Int.le_refl _, hlt⟩, .inl hneg⟩
  · exact ⟨last - 1, mem_indices.mpr ⟨by omega, by omega⟩, .inr (by omega)⟩

theorem run_refused {s : State} {r : Refusal} (k : Nat) (h : step s = .refused r) :
    Sys2Proof.core.run (k + 1) s = .refused r := by
  have stops : ∀ (M : Host.Core) (x : M.State) (q : M.Refusal), M.step x = .refused q →
      M.run (k + 1) x = .refused q := by
    intro M x q hx
    simp only [Host.Core.run, hx]
  exact stops Sys2Proof.core s r h

/-! ## The obligations -/

/-- Settles O29: the trace is `indices`, the next state `exec_staticfor`, and the refusal of the whole build
`step_refused_of_illFormed`. -/
theorem staticforUnrollsTheRange : Obligations.StaticforUnrollsTheRange := by
  intro k first last s cb start after
  refine ⟨?decodes, fun hle => ?unrolls, ?empty, fun hlt => if_pos hlt, fun hs l hl v hv => ?fails⟩
  case decodes =>
    rintro e1 e2 rfl rfl hle
    rw [ofNat_eq_descriptor (op := 8) (ws := 0) (k := k) (by simp)]
    exact decodeLine_of_decode_ok (decode_descriptor_staticfor [] hle)
  case unrolls =>
    exact ⟨indices first last, by simp, fun j hj => indices_getElem? (by simpa using hj), exec_staticfor hle s⟩
  case empty =>
    rintro rfl
    rw [exec_staticfor (Int.le_refl _), unroll_empty]
    rfl
  case fails =>
    obtain ⟨-, -, v', -, hr⟩ := step_refused_of_illFormed hs hl hv
    exact ⟨v', hr⟩

/-- Settles O45, by `step_staticfor`. -/
theorem staticforStepPlacesTheCreatedLines : Obligations.StaticforStepPlacesTheCreatedLines := by
  intro s before after l k first last hn hb hi
  rw [step_staticfor hn hb hi, exec_staticfor (le_of_decodeLine_staticfor hi)]
  rfl

/-- Settles O43: a built design evaluates the line called (`step_evaluates`), and a STATICFOR line is selected where it
is the first (`splitStaticFor_append`). -/
theorem stepRunsTheDecodedInstruction : Obligations.StepRunsTheDecodedInstruction := by
  constructor
  · intro s n rest l i hb hc hl hi
    exact (step_evaluates hb hc).trans (evaluate_line hl hi)
  · intro s before after l i hn hb hl hi
    exact step_unrolls (hn ▸ splitStaticFor_append hb hl) hi

/-- Settles O44: the loaded design is one line whose ports show the caller's signals. -/
theorem fetchedWordRunsNext : Obligations.FetchedWordRunsNext := by
  intro s nbits w i h
  have hi := decodeLine_of_decodeTableWord h
  refine ⟨fun hst => step_signalLine rfl rfl hi hst, fun hst => ?_⟩
  have hl : isStaticForLine (signalLine (tableHalfwords nbits w)) = true := isStaticForLine_of_isStatic hi hst
  have hs : splitStaticFor (s.withFetchWord nbits w).netlist = some ([], signalLine (tableHalfwords nbits w), []) :=
    splitStaticFor_append (before := []) (by simp) hl
  exact step_unrolls hs hi

/-- Settles O50: a step that gives a next state has either unrolled another line or found a built design, in which every
line decodes (`step_next_cases`, `built_line`). -/
theorem illFormedDesignNeverRuns : Obligations.IllFormedDesignNeverRuns := by
  constructor
  · intro s l v hl hrt hv
    refine ⟨fun t ht => ?_, fun hs => ?_⟩
    · have notBuilt : ¬ s.Built := by
        intro hb
        obtain ⟨i, hi, -⟩ := built_line hb hl
        simp [hi] at hv
      obtain ⟨before, m, after, k, first, last, hs, -, -, rfl⟩ | ⟨hb, -⟩ | ⟨hb, -⟩ | ⟨hb, -⟩ := step_next_cases ht
      · obtain ⟨hn, hm, -⟩ := splitStaticFor_some hs
        have hne : l ≠ m := by
          rintro rfl
          simp [hrt] at hm
        refine ⟨?_, rfl, rfl, rfl⟩
        simp only [hn, List.mem_append, List.mem_cons, hne, false_or] at hl
        simp only [placeCreated_netlist, List.mem_append]
        tauto
      all_goals exact absurd hb notBuilt
    · obtain ⟨-, -, v', -, hr⟩ := step_refused_of_illFormed hs hl hv
      exact ⟨v', hr⟩
  · intro s before after l v hn hb hl hv
    have hs := splitStaticFor_append (after := after) hb hl
    simp [step, hn, hs, hv]

/-- Settles O59: the first step leaves the ONES line of every index (`exec_staticfor_onesTable`), one of them outside
0 to `W`, and the second meets an ill-formed line, whose name can only be BV1. -/
theorem oversizedMaskInATableFailsTheBuild : Obligations.OversizedMaskInATableFailsTheBuild := by
  intro s k w first last l hn hc hi hk hlt hout
  obtain ⟨t, hstep, ht⟩ : ∃ t, step s = .next t ∧ t.netlist = (indices first last).map (onesLine w) := by
    rw [step_staticfor (before := []) (after := []) hn (by simp) hi,
      exec_staticfor_onesTable (s := { s with netlist := [] ++ [] }) (Int.le_of_lt hlt) hk]
    exact ⟨_, rfl, by simp [hc]⟩
  obtain ⟨i, hmem, hbad⟩ := exists_mem_indices_outside hlt hout
  have hline : onesLine w i ∈ t.netlist := ht ▸ List.mem_map_of_mem hmem
  have hrefused := onesLine_refused w hbad
  refine ⟨⟨t, hstep, _, hline, hrefused⟩, ?_⟩
  have hs : splitStaticFor t.netlist = none := ht ▸ splitStaticFor_map_onesLine w _
  obtain ⟨m, hm, v, hv, hr⟩ := step_refused_of_illFormed hs hline hrefused
  obtain ⟨j, -, rfl⟩ := List.mem_map.mp (ht ▸ hm)
  obtain rfl := eq_bv1_of_onesLine_refused hv
  rw [run_succ 1 hstep, run_refused 0 hr]

end Sys2Proof.Machine

/-! The statements of 70_reset_and_hazards.md R190 and R191 and of 20_memory.md sections 3 and 4 about a design that
runs: what every step keeps, and that all lines of a built design are usable at once and for ever. -/

namespace Sys2Proof.Machine

/-! ## The same design -/

/-- The lines, the inputs, the caller's signals and the strategy of `t` are those of `s`. -/
structure SameDesign (s t : State) : Prop where
  netlist : t.netlist = s.netlist
  inputs : t.inputs = s.inputs
  signals : sameSignals s t

namespace SameDesign
variable {s t : State}

theorem refl (s : State) : SameDesign s s := ⟨rfl, rfl, rfl, rfl, rfl, rfl⟩

theorem built (h : SameDesign s t) (hb : s.Built) : t.Built := by
  rw [State.Built, buildCheck_none] at hb ⊢
  rwa [h.netlist, h.inputs]

theorem wiresOf_eq (h : SameDesign s t) (hb : s.Built) : wiresOf t = wiresOf s :=
  wiresOf_congr h.signals h.netlist h.inputs hb.1

theorem output_eq (h : SameDesign s t) (hb : s.Built) (n : Nat) : t.output n = s.output n :=
  output_congr h.signals h.netlist h.inputs hb.1 n

end SameDesign

/-! ## One step of a built design -/

/-- The state after an evaluation: the calls `rest` are still to come, and `y` shows `v`. -/
def State.showing (s : State) (rest : List Nat) (v : Value) : State := { s.running rest with y := v }

section Showing
variable (s : State) (rest : List Nat) (v : Value)

@[simp] theorem showing_calls : (s.showing rest v).calls = rest := rfl
@[simp] theorem showing_y : (s.showing rest v).y = v := rfl
@[simp] theorem showing_netlist : (s.showing rest v).netlist = s.netlist := rfl

theorem sameDesign_showing : SameDesign s (s.showing rest v) := ⟨rfl, rfl, rfl, rfl, rfl, rfl⟩

theorem sameDesign_calls (calls : List Nat) : SameDesign s { s with calls := calls } := ⟨rfl, rfl, rfl, rfl, rfl, rfl⟩

end Showing

section Built
variable {s : State} (hb : s.Built)
include hb

/-- A call of one of the lines shows that line's output; a call of no line leaves `y` as it was. -/
theorem step_call {n : Nat} {rest : List Nat} (hc : s.nextCall = some (n, rest)) :
    ∃ v, step s = .next (s.showing rest v) ∧ (n < s.netlist.length → s.output n = some v) := by
  rw [step_evaluates hb hc]
  by_cases hn : n < s.netlist.length
  · obtain ⟨w, v, hv, he⟩ := evaluate_built (s := s.running rest) hb (List.getElem?_eq_getElem hn)
    exact ⟨⟨w, v⟩, he, fun _ => ((sameDesign_showing s rest s.y).output_eq hb n).symm.trans hv⟩
  · have hnone : (s.running rest).netlist[n]? = none := List.getElem?_eq_none (Nat.le_of_not_lt hn)
    exact ⟨s.y, by rw [evaluate, hnone]; rfl, fun h => absurd h hn⟩

theorem step_built : ∃ t, step s = .next t ∧ SameDesign s t := by
  cases hc : s.nextCall with
  | none => exact ⟨s, by simp [step, hb.1, hb.2, hc], .refl s⟩
  | some p =>
    obtain ⟨v, hv, -⟩ := step_call hb hc
    exact ⟨_, hv, sameDesign_showing s p.2 v⟩

/-! ## Runs of a built design -/

/-- After any earlier calls, the call of line `n` is taken. -/
theorem run_calls {earlier rest : List Nat} {n : Nat} (hc : s.calls = earlier ++ n :: rest) :
    ∃ v, Sys2Proof.core.run (earlier.length + 1) s = .next (s.showing rest v) ∧
      (n < s.netlist.length → s.output n = some v) := by
  induction earlier generalizing s with
  | nil =>
    obtain ⟨v, hstep, hv⟩ := step_call hb (n := n) (rest := rest) (by rw [State.nextCall, hc]; rfl)
    exact ⟨v, run_succ 0 hstep, hv⟩
  | cons m earlier ih =>
    obtain ⟨u, hstep, -⟩ := step_call hb (n := m) (rest := earlier ++ n :: rest) (by rw [State.nextCall, hc]; rfl)
    have same := sameDesign_showing s (earlier ++ n :: rest) u
    obtain ⟨v, hrun, hv⟩ := ih (same.built hb) rfl
    exact ⟨v, (run_succ _ hstep).trans hrun, fun hn => (same.output_eq hb n).symm.trans (hv hn)⟩

/-- With no call listed a step is that of a caller who lists every line in order (log 17). -/
theorem step_eq_step_range (hc : s.calls = []) (hpos : 0 < s.netlist.length) :
    step s = step { s with calls := List.range s.netlist.length } := by
  obtain ⟨l, ls, hn⟩ := List.exists_cons_of_length_pos hpos
  have first : s.nextCall = some (0, List.range' 1 ls.length) := by simp [State.nextCall, hc, hn]
  have listed : State.nextCall { s with calls := List.range s.netlist.length } = some (0, List.range' 1 ls.length) := by
    simp [State.nextCall, hn, List.range_eq_range', List.range'_succ]
  rw [step_evaluates hb first, step_evaluates ((sameDesign_calls s _).built hb) listed]
  rfl

/-- With no call listed, the run of `n + 1` steps ends with line `n`, the lines after it still to come. -/
theorem run_listing (hc : s.calls = []) {n : Nat} (hn : n < s.netlist.length) :
    ∃ v, Sys2Proof.core.run (n + 1) s = .next (s.showing (List.range' (n + 1) (s.netlist.length - (n + 1))) v) ∧
      s.output n = some v := by
  have listing : List.range s.netlist.length =
      List.range n ++ n :: List.range' (n + 1) (s.netlist.length - (n + 1)) := by
    obtain ⟨m, hm⟩ := Nat.exists_eq_add_of_lt hn
    have tail : s.netlist.length - (n + 1) = m := by omega
    have joined := List.range'_append_1 (s := 0) (m := n) (n := m + 1)
    rw [Nat.zero_add, List.range'_succ, ← Nat.add_assoc, ← hm] at joined
    rw [tail, List.range_eq_range', List.range_eq_range', joined]
  have same := sameDesign_calls s (List.range s.netlist.length)
  obtain ⟨v, hrun, hv⟩ := run_calls (same.built hb) listing
  rw [List.length_range] at hrun
  obtain ⟨t, hstep, -⟩ := step_built hb
  have hstep' := (step_eq_step_range hb hc (Nat.zero_lt_of_lt hn)).symm.trans hstep
  exact ⟨v, (run_succ n hstep).trans ((run_succ n hstep').symm.trans hrun),
    (same.output_eq hb n).symm.trans (hv hn)⟩

end Built

/-! ## The obligations -/

/-- Settles O42: a run-time operation drives `y` alone, which no result reads (`exec_next_cases`, `result_congr`). -/
theorem evaluationsDoNotDisturbEachOther : Obligations.EvaluationsDoNotDisturbEachOther := by
  intro i j s t hi hj h
  obtain ⟨-, n, v, rfl⟩ | ⟨k, first, last, rfl, -⟩ := exec_next_cases h
  · exact result_congr hj ⟨rfl, rfl, rfl, rfl⟩
  · cases hi

/-- Settles O47, by `readWire_writeWire`. -/
theorem wireReadsWhatDroveIt : Obligations.WireReadsWhatDroveIt := readWire_writeWire

/-- Settles O49, by `step_call`. -/
theorem evaluationStepFrame : Obligations.EvaluationStepFrame := by
  intro s t n rest hb hc hn ht
  obtain ⟨v, hstep, hv⟩ := step_call hb hc
  cases hstep.symm.trans ht
  exact ⟨rfl, hv hn, (sameDesign_showing s rest v).wiresOf_eq hb⟩

/-- Settles O52: an unrolling places every created line and leaves an elaboration state; any other step finds a built
design, in which no STATICFOR is left (`step_next_cases`). -/
theorem stepKeepsTheInvariant : Obligations.StepKeepsTheInvariant := by
  rintro s t ⟨hw, hcr, hel⟩ h
  obtain ⟨before, l, after, k, first, last, -, -, -, rfl⟩ | ⟨hb, n, rest, w, v, -, -, -, rfl⟩ |
    ⟨hb, n, rest, -, -, rfl⟩ | ⟨hb, -, rfl⟩ := step_next_cases h
  · exact ⟨hw, rfl, nofun⟩
  · exact ⟨hw, hcr, fun _ => hb.1⟩
  · exact ⟨hw, hcr, fun _ => hb.1⟩
  · exact ⟨hw, hcr, hel⟩

/-- Settles O53, by `settle_wf`. -/
theorem wiresStayCanonical : Obligations.WiresStayCanonical :=
  fun s hinv => ⟨settle_wf s _ hinv.1, fun _ => settle_wf s _ hinv.1⟩

/-- Settles O54, by the four things a step can have done (`step_next_cases`); a design with a STATICFOR is not built. -/
theorem buildChoicesNeverChange : Obligations.BuildChoicesNeverChange := by
  intro s t h
  obtain ⟨before, l, after, k, first, last, hs, -, -, rfl⟩ | ⟨-, n, rest, w, v, -, -, -, rfl⟩ |
    ⟨-, n, rest, -, -, rfl⟩ | ⟨-, -, rfl⟩ := step_next_cases h
  · exact ⟨rfl, rfl, rfl, rfl, rfl, rfl, fun hb => by simp [hb.1] at hs⟩
  · exact ⟨rfl, rfl, rfl, rfl, rfl, rfl, fun _ => ⟨rfl, rfl, fun _ => rfl⟩⟩
  · exact ⟨rfl, rfl, rfl, rfl, rfl, rfl, fun _ => ⟨rfl, rfl, fun _ => rfl⟩⟩
  · exact ⟨rfl, rfl, rfl, rfl, rfl, rfl, fun _ => ⟨rfl, rfl, id⟩⟩

/-- Settles O55, by induction on the number of steps, each of which keeps the design (`step_built`). -/
theorem builtDesignStaysBuilt : Obligations.BuiltDesignStaysBuilt := by
  intro s k hb
  induction k generalizing s with
  | zero => exact ⟨s, rfl, hb, rfl, rfl, fun _ => rfl⟩
  | succ k ih =>
    obtain ⟨u, hstep, same⟩ := step_built hb
    obtain ⟨t, hrun, ht, hn, hw, ho⟩ := ih u (same.built hb)
    exact ⟨t, (run_succ k hstep).trans hrun, ht, hn.trans same.netlist, hw.trans (same.wiresOf_eq hb),
      fun n => (ho n).trans (same.output_eq hb n)⟩

/-- Settles O56, by `run_calls`. -/
theorem everyInstanceIsUsableAtAnyTime : Obligations.EveryInstanceIsUsableAtAnyTime := by
  intro s earlier n rest hb hn
  have same := sameDesign_calls s (earlier ++ n :: rest)
  obtain ⟨v, hrun, hv⟩ := run_calls (same.built hb) rfl
  exact ⟨_, hrun, (same.output_eq hb n).symm.trans (hv hn), rfl⟩

/-- Settles O57, by `run_listing`; the run through the whole listing ends with its last line. -/
theorem builtDesignEvaluatesEveryLine : Obligations.BuiltDesignEvaluatesEveryLine := by
  intro s hb hc
  refine ⟨fun n hn => ?_, ?_⟩
  · obtain ⟨v, hrun, hv⟩ := run_listing hb hc hn
    exact ⟨_, hrun, hv⟩
  · cases hlen : s.netlist.length with
    | zero => exact ⟨s, rfl, hc, rfl⟩
    | succ m =>
      obtain ⟨v, hrun, -⟩ := run_listing hb hc (n := m) (by omega)
      exact ⟨_, hrun, by simp [hlen], rfl⟩

/-- Settles O58: either order leaves the design after both calls (`run_calls`), and `y` shows the line called last. -/
theorem evaluationsCommute : Obligations.EvaluationsCommute := by
  intro s n m rest hb hn hm
  have sameN := sameDesign_calls s (n :: m :: rest)
  have sameM := sameDesign_calls s (m :: n :: rest)
  obtain ⟨v, hrun, hv⟩ := run_calls (earlier := [n]) (sameN.built hb) rfl
  obtain ⟨u, hrun', hu⟩ := run_calls (earlier := [m]) (sameM.built hb) rfl
  exact ⟨_, _, hrun, hrun', rfl, (sameN.output_eq hb m).symm.trans (hv hm), (sameM.output_eq hb n).symm.trans (hu hn)⟩

end Sys2Proof.Machine

/-! The statements of 30_encoding.md sections 3 and 4 about ports and wires (R70, R72): what a port sees, what the wires
of a built design carry, and which wirings are refused. -/

namespace Sys2Proof.Machine

/-! ## Ports -/

theorem toPort_of_width {W : Nat} (v : BitVec W) : toPort W ⟨W, v⟩ = v := by simp [toPort]

section Present
variable {l : Line} {i : Instr} {ws : List (Nat × Value)} (s : State)

theorem present_a_wired {w : Width} {v : BitVec w.bits} (hi : aWidth i = some w)
    (hv : sourceValue l.a ws = some ⟨w.bits, v⟩) : (present l i ws s).a = v.setWidth 64 := by
  simp [present, hi, valuePort, hv, toPort_of_width]

theorem smallPort_wired {src : Source} {v old : BitVec 32} (hv : sourceValue src ws = some ⟨32, v⟩) :
    smallPort src ws old = v := by
  simp [smallPort, hv, toPort_of_width]

theorem present_a_signal (h : l.a = .signal) : (present l i ws s).a = s.a := by
  rw [present, h]
  cases aWidth i <;> rfl

theorem present_b_signal (h : l.b = .signal) : (present l i ws s).b = s.b := by
  rw [present, h]
  cases hasB i <;> rfl

theorem present_c_signal (h : l.c = .signal) : (present l i ws s).c = s.c := by
  rw [present, h]
  cases hasC i <;> rfl

end Present

/-! ## Wires of a built design -/

theorem output_line {s : State} {n : Nat} {l : Line} (hl : s.netlist[n]? = some l) :
    s.output n = lineOutput s (wiresBefore s n) l := by
  rw [State.output, hl]
  rfl

section Built
variable {s : State} (hb : s.Built) {n : Nat} {l : Line} (hl : s.netlist[n]? = some l)
include hb

theorem readWire_wiresOf_input {m : Nat} {v : Value} (hv : readWire s.inputs m = some v) :
    readWire (wiresOf s) m = some v :=
  (settle_keeps (fun _ hm => built_lineOutput hb hm) ((mem_keys _ _).mpr ⟨v, hv⟩) (buildCheck_none.mp hb.2).2).trans hv

include hl

/-- A wire driven before a line carries the same at the end of the design. -/
theorem readWire_wiresOf_of_mem_wiresBefore {m : Nat} (hm : m ∈ (wiresBefore s n).map Prod.fst) :
    readWire (wiresOf s) m = readWire (wiresBefore s n) m := by
  obtain ⟨hsettle, hcheck⟩ := built_wiresBefore hb hl
  have outputs : ∀ k ∈ l :: s.netlist.drop (n + 1), ∀ ws, ∃ v, lineOutput s ws k = some v := by
    intro k hk
    refine built_lineOutput hb ?_
    obtain rfl | hk := List.mem_cons.mp hk
    exacts [List.mem_of_getElem? hl, List.mem_of_mem_drop hk]
  rw [hsettle, settle_keeps outputs hm hcheck]

/-- The wire a line drives is kept by the lines after it. -/
theorem readWire_wiresOf_target {m : Nat} {v : Value} (ht : l.target = some m) (hv : s.output n = some v) :
    readWire (wiresOf s) m = some v := by
  obtain ⟨hsettle, hcheck⟩ := built_wiresBefore hb hl
  obtain ⟨-, -, hrest⟩ := checkWiring_cons hcheck
  have hdriven : driveTarget l.target (lineOutput s (wiresBefore s n) l) (wiresBefore s n) =
      writeWire (wiresBefore s n) m v := by
    rw [← output_line hl, hv, ht]
    rfl
  have hcheck' : checkWiring ((writeWire (wiresBefore s n) m v).map Prod.fst) (s.netlist.drop (n + 1)) = none := by
    rw [← hrest]
    apply checkWiring_congr
    simp [mem_writeWire_keys, ht]
  rw [hsettle, settle, hdriven,
    settle_keeps (fun k hk => built_lineOutput hb (List.mem_of_mem_drop hk))
      ((mem_writeWire_keys _ _ _ _).mpr (.inl rfl)) hcheck', readWire_writeWire, if_pos rfl]

/-- A wire that a line uses is driven before it. -/
theorem mem_wiresBefore_of_lineUses {m : Nat} (hm : m ∈ lineUses l) : m ∈ (wiresBefore s n).map Prod.fst :=
  (checkWiring_cons (built_wiresBefore hb hl).2).1 m hm

theorem output_eq_lineOutput_wiresOf : s.output n = lineOutput s (wiresOf s) l := by
  rw [output_line hl]
  exact lineOutput_wires s fun m hm =>
    (readWire_wiresOf_of_mem_wiresBefore hb hl (mem_wiresBefore_of_lineUses hb hl hm)).symm

end Built

/-! ## The refusals of the wiring check -/

section Wiring
variable {d : List Nat} {l : Line} {ls : List Line} {n : Nat}

theorem checkWiring_undriven (hn : n ∈ lineUses l) (hd : n ∉ d) :
    ∃ m, checkWiring d (l :: ls) = some (.undrivenWire m) := by
  have found : ((lineUses l).find? fun n => !d.contains n).isSome := by
    rw [List.find?_isSome]
    exact ⟨n, hn, by simpa using hd⟩
  obtain ⟨m, hm⟩ := Option.isSome_iff_exists.mp found
  exact ⟨m, by rw [checkWiring, hm]⟩

theorem checkWiring_multiplyDriven (hu : ∀ m ∈ lineUses l, m ∈ d) (ht : l.target = some n) (hn : n ∈ d) :
    checkWiring d (l :: ls) = some (.multiplyDrivenWire n) := by
  have notFound : ((lineUses l).find? fun n => !d.contains n) = none := by
    rw [List.find?_eq_none]
    intro m hm
    simpa using hu m hm
  simp only [checkWiring, notFound, ht]
  exact if_pos (List.contains_iff_mem.mpr hn)

/-- The wires driven before a line, as the wiring check lists them. -/
theorem mem_driven_iff {inputs : List (Nat × Value)} {before : List Line} :
    n ∈ before.filterMap Line.target ++ inputs.map Prod.fst ↔
      readWire inputs n ≠ none ∨ ∃ m ∈ before, m.target = some n := by
  rw [List.mem_append, mem_keys, List.mem_filterMap, Option.ne_none_iff_exists', or_comm]

end Wiring

/-! ## The obligations -/

/-- Settles O46, port by port. -/
theorem portsSeeTheWiredPattern : Obligations.PortsSeeTheWiredPattern := by
  intro l i ws s
  refine ⟨fun w v hi hv => ?_, fun v hi hv => ?_, fun v hi hv => ?_, present_a_signal s, present_b_signal s,
    present_c_signal s⟩
  · rw [State.aPort, present_a_wired s hi hv]
    exact aPort_with_a s v
  · rw [present, if_pos hi, smallPort_wired hv]
  · simp only [present, if_pos hi, smallPort_wired hv]

/-- Settles O48: lines of a built design drive new wires only, so every wire keeps what first drove it. -/
theorem wiresCarryTheOutputs : Obligations.WiresCarryTheOutputs := by
  intro s hb
  refine ⟨fun n v => readWire_wiresOf_input hb, fun n l hl => ?_, fun n l hl => ⟨fun m hm => ?_, ?_⟩⟩
  · obtain ⟨v, hv⟩ := built_lineOutput hb (List.mem_of_getElem? hl) (wiresBefore s n)
    have hv : s.output n = some v := (output_line hl).trans hv
    exact ⟨v, hv, fun m ht => readWire_wiresOf_target hb hl ht hv⟩
  · have hm := mem_wiresBefore_of_lineUses hb hl hm
    obtain ⟨v, hv⟩ := (mem_keys _ _).mp hm
    exact ⟨v, hv, (readWire_wiresOf_of_mem_wiresBefore hb hl hm).trans hv⟩
  · exact output_eq_lineOutput_wiresOf hb hl

/-- Settles O51: where every line decodes the build check is the wiring check, which `checkWiring_none`
describes at every line. -/
theorem badWiringIsRefused : Obligations.BadWiringIsRefused := by
  intro s hs hi driven
  have refused {r : Refusal} (h : checkWiring (s.inputs.map Prod.fst) s.netlist = some r) : step s = .refused r :=
    step_refused hs ((buildCheck_of_wellFormed hi).trans h)
  refine ⟨fun before l rest hn hbad => ?anywhere, fun l rest hn => ⟨fun n hu hnone => ?undriven,
    fun n v hu ht hv => ?twice⟩, fun hgood => ?built⟩
  case anywhere =>
    have hsome : checkWiring (s.inputs.map Prod.fst) s.netlist ≠ none := by
      intro h
      obtain ⟨huses, htarget⟩ := (checkWiring_none _ _).mp h before l rest hn
      obtain ⟨n, hu, hnot⟩ | ⟨n, ht, hdr⟩ := hbad
      · exact hnot (mem_driven_iff.mp (huses n hu))
      · exact htarget n ht (mem_driven_iff.mpr hdr)
    obtain ⟨r, hr⟩ := Option.ne_none_iff_exists'.mp hsome
    obtain ⟨m, rfl | rfl⟩ := checkWiring_some hr
    exacts [⟨m, .inl (refused hr)⟩, ⟨m, .inr (refused hr)⟩]
  case undriven =>
    have hnot : n ∉ s.inputs.map Prod.fst := by simp [mem_keys, hnone]
    obtain ⟨m, hm⟩ := checkWiring_undriven (ls := rest) hu hnot
    exact ⟨m, refused (hn ▸ hm)⟩
  case twice =>
    have hall : ∀ m ∈ lineUses l, m ∈ s.inputs.map Prod.fst := fun m hm =>
      (mem_keys _ _).mpr (Option.ne_none_iff_exists'.mp (hu m hm))
    exact refused (hn ▸ checkWiring_multiplyDriven hall ht ((mem_keys _ _).mpr ⟨v, hv⟩))
  case built =>
    have hcheck : checkWiring (s.inputs.map Prod.fst) s.netlist = none := by
      refine (checkWiring_none _ _).mpr fun before l rest hn => ?_
      obtain ⟨huses, htarget⟩ := hgood before l rest hn
      exact ⟨fun n hu => mem_driven_iff.mpr (huses n hu), fun n ht hdr => htarget n ht (mem_driven_iff.mp hdr)⟩
    have hb : s.Built := ⟨hs, (buildCheck_of_wellFormed hi).trans hcheck⟩
    obtain ⟨t, ht, -⟩ := step_built hb
    exact ⟨hb, t, ht⟩

end Sys2Proof.Machine

/-! The statements of 10_state.md section 4, on the state after reset, and of 60_exceptions.md R173, on violated
run-time preconditions. -/

namespace Sys2Proof.Machine

/-- Settles O1: every field is a literal, and a design without lines is built and has nothing to evaluate (log 11). -/
theorem resetHoldsNothingAndIdles : Obligations.ResetHoldsNothingAndIdles :=
  ⟨rfl, rfl, rfl, rfl, rfl, rfl, by decide, by decide, rfl⟩

/-- Settles O37: outside its precondition each function gives what Config leaves unspecified (`getBit_outside` and the
like). -/
theorem violatedPreconditionsGiveOpenValues : Obligations.ViolatedPreconditionsGiveOpenValues := by
  intro w s
  refine ⟨fun h => ⟨?getbit, ?isbitset⟩, fun h => ?getbits, fun h => ?sext16, fun h => ?sext32, fun h => ?incbcd⟩
  case getbit => rw [exec_getbit, getBit_outside _ h]; rfl
  case isbitset => rw [exec_isbitset, isBitSet_outside _ h]; rfl
  case getbits => rw [exec_getbits, getBits_outside _ h]; rfl
  case sext16 => exact exec_sext16_of_eq (signExtend_outside _ h)
  case sext32 => exact exec_sext32_of_eq (signExtend_outside _ h)
  case incbcd => rw [exec_incbcd, incBcd_outside h]

end Sys2Proof.Machine

/-! The statement of 44_static_for.md R152 and R153 about the lines an invocation of a listed callback creates, and what
the descriptor of a created line decodes to (30_encoding.md R61 to R67). -/

namespace Sys2Proof

/-! ## The static immediate of a created descriptor -/

section Immediate
variable {k : Int} {ws : BitVec 2}

theorem createdImmediate_eq_zero_iff : createdImmediate k = 0 ↔ k = 0 := by
  have hn := Machine.createdImmediate_toNat k
  rw [← BitVec.toNat_inj, hn]
  split <;> simp <;> omega

theorem immediateFits_iff : immediateFits k = true ↔ 0 ≤ k ∧ k ≤ 255 := by simp [immediateFits]

theorem createdImmediate_of_fits (h : immediateFits k = true) : createdImmediate k = BitVec.ofInt 8 k := if_pos h

theorem createdImmediate_high_eq_zero_iff : (createdImmediate k).extractLsb' 2 6 = 0 ↔ 0 ≤ k ∧ k < 4 := by
  rw [extractLsb'_two_six_eq_zero_iff, Machine.createdImmediate_toNat]
  split <;> omega

theorem createdImmediate_low_eq_iff (h0 : 0 ≤ k) (h1 : k < 4) :
    (createdImmediate k).extractLsb' 0 2 = ws ↔ k = ws.toNat := by
  rw [extractLsb'_zero_two_eq_iff, Machine.createdImmediate_toNat, if_pos (by omega)]
  omega

end Immediate

/-! ## What a created descriptor decodes to, operation by operation -/

section Words
variable {op : BitVec 4} {ws : BitVec 2} {k first last : Int} {i : Instr} {v : BuildViolation}

/-- A created descriptor of a run-time operation is one halfword, given by its fields. -/
theorem decodeLine_created_ok (h8 : op ≠ 8)
    (h : ∀ d, opField d = op → wsField d = ws → kField d = createdImmediate k → Spells d [] i []) :
    decodeLine (createdWords op ws k first last) = .ok i := by
  rw [Machine.createdWords_runtime h8]
  exact decodeLine_of_decode_ok (decode_of_spells (by simp) (h _ (by simp) (by simp) (by simp)))

/-- Immediate 0, as the seven operations without one must have it (R64). -/
theorem decodeLine_created_zero {op' : BitVec 4} (hop : op = op') (h8 : op' ≠ 8) (hk : k = 0)
    (h : ∀ d, opField d = op' → wsField d = ws → kField d = 0 → Spells d [] i []) :
    decodeLine (createdWords op ws k first last) = .ok i := by
  subst hop
  exact decodeLine_created_ok h8 fun d ho hw hi => h d ho hw (hi.trans (createdImmediate_eq_zero_iff.mpr hk))

theorem decodeLine_created_error (h8 : op ≠ 8)
    (h : ∀ d, zField d = 0 → opField d = op → wsField d = ws → kField d = createdImmediate k →
      decode [d] = .error v) :
    decodeLine (createdWords op ws k first last) = .error v := by
  rw [Machine.createdWords_runtime h8]
  exact decodeLine_of_decode_error (h _ (by simp) (by simp) (by simp) (by simp))

theorem decodeLine_created_ones (hop : op = 0) : decodeLine (createdWords op ws k first last) =
    if 0 ≤ k ∧ k ≤ (Width.ofSelect ws).bits then .ok (.ones (Width.ofSelect ws) k.toNat) else .error .bv1 := by
  rw [hop, Machine.createdWords_runtime (by decide), ← Machine.decodeLine_onesWords, select_ofSelect]

/-- The seven operations whose immediate must be 0 (R64). -/
theorem decodeLine_created_nonzero (hop : op ∈ [1, 2, 3, 4, 5, 6, 7]) (hk : k ≠ 0) :
    decodeLine (createdWords op ws k first last) = .error .bv4 := by
  refine decodeLine_created_error (by rintro rfl; simp at hop) fun d hz ho _ hi => ?_
  have hne : kField d ≠ 0 := by rwa [hi, ne_eq, createdImmediate_eq_zero_iff]
  simp only [List.mem_cons, List.not_mem_nil, or_false, ← ho] at hop
  rcases hop with hop | hop | hop | hop | hop | hop | hop
  · exact (decode_getbit hz hop).trans (decodePlain_of_ne hne)
  · exact (decode_getbits hz hop).trans (decodePlain_of_ne hne)
  · exact (decode_isbitset hz hop).trans (decodePlain_of_ne hne)
  · exact (decode_sext hz hop).trans (decodeSext_refused (.inr hne))
  · exact (decode_rotr hz hop).trans (decodePlain_of_ne hne)
  · exact (decode_rotl hz hop).trans (decodePlain_of_ne hne)
  · exact (decode_incbcd hz hop).trans (decodeIncbcd_refused (.inr hne))

theorem decodeLine_created_sext_width (hop : op = 4) (h1 : ws ≠ 1) (h2 : ws ≠ 2) :
    decodeLine (createdWords op ws k first last) = .error .bv4 :=
  decodeLine_created_error (by rw [hop]; decide) fun _ hz ho hw _ =>
    (decode_sext hz (ho.trans hop)).trans (decodeSext_refused (.inl (by rw [hw]; exact ⟨h1, h2⟩)))

theorem decodeLine_created_incbcd_width (hop : op = 7) (h : ws ≠ 0) :
    decodeLine (createdWords op ws k first last) = .error .bv4 :=
  decodeLine_created_error (by rw [hop]; decide) fun _ hz ho hw _ =>
    (decode_incbcd hz (ho.trans hop)).trans (decodeIncbcd_refused (.inl (by rw [hw]; exact h)))

theorem decodeLine_created_unassigned (hop : 9 < op) :
    decodeLine (createdWords op ws k first last) = .error .bv4 :=
  decodeLine_created_error (by rintro rfl; revert hop; decide) fun _ hz ho _ _ =>
    decode_unassigned hz (by rw [ho]; exact hop)

/-! ### BITCAST (R64, R67 WF4) -/

theorem decodeLine_created_bitcast (hop : op = 9) (hk : k = ws.toNat) :
    decodeLine (createdWords op ws k first last) = .ok (.bitcast (Width.ofSelect ws) (Width.ofSelect ws)) := by
  have hlt := ws.isLt
  refine decodeLine_created_ok (by rw [hop]; decide) fun d ho hw hi => ?_
  subst hw
  refine .bitcast (ho.trans hop) ?_ ?_ <;> rw [hi]
  · exact createdImmediate_high_eq_zero_iff.mpr (by omega)
  · exact (createdImmediate_low_eq_iff (by omega) (by omega)).mpr hk

theorem decodeLine_created_bitcast_mismatch (hop : op = 9) (h0 : 0 ≤ k) (h4 : k < 4) (hk : k ≠ ws.toNat) :
    decodeLine (createdWords op ws k first last) = .error .bv2 := by
  refine decodeLine_created_error (by rw [hop]; decide) fun d hz ho hw hi => ?_
  rw [decode_bitcast hz (ho.trans hop), hw, hi]
  exact decodeBitcast_mismatch (createdImmediate_high_eq_zero_iff.mpr ⟨h0, h4⟩)
    (mt (createdImmediate_low_eq_iff h0 h4).mp hk)

theorem decodeLine_created_bitcast_reserved (hop : op = 9) (hk : k < 0 ∨ 4 ≤ k) :
    decodeLine (createdWords op ws k first last) = .error .bv4 := by
  refine decodeLine_created_error (by rw [hop]; decide) fun d hz ho hw hi => ?_
  rw [decode_bitcast hz (ho.trans hop), hi]
  exact decodeBitcast_reserved (by rw [ne_eq, createdImmediate_high_eq_zero_iff]; omega)

/-! ### STATICFOR (R65, R67 WF3 and WF5) -/

theorem boundFits_iff {x : Int} : boundFits x = true ↔ -32768 ≤ x ∧ x ≤ 32767 := by simp [boundFits]

theorem decodeLine_created_staticfor (hop : op = 8) (hws : ws = 0) (h0 : 0 ≤ k) (h1 : k ≤ 255)
    (hf : boundFits first = true) (hl : boundFits last = true) :
    decodeLine (createdWords op ws k first last) =
      if first ≤ last then .ok (.staticfor (BitVec.ofInt 8 k) first last) else .error .bv3 := by
  have hfits := immediateFits_iff.mpr ⟨h0, h1⟩
  rw [hop, Machine.createdWords_staticfor hfits hf hl, createdImmediate_of_fits hfits, decodeLine,
    decode_staticfor (by simp) (by simp), wsField_descriptor, kField_descriptor, hws]
  by_cases hle : first ≤ last <;>
    simp [decodeStaticfor, Width.ofSelect, Machine.toInt_ofInt_of_boundFits hf, Machine.toInt_ofInt_of_boundFits hl,
      hle]

theorem decodeLine_created_staticfor_refused (hop : op = 8) (h : ws ≠ 0 ∨
      ¬ (immediateFits k = true ∧ boundFits first = true ∧ boundFits last = true)) :
    decodeLine (createdWords op ws k first last) = .error .bv4 := by
  subst hop
  apply decodeLine_of_decode_error
  by_cases hs : immediateFits k = true ∧ boundFits first = true ∧ boundFits last = true
  · obtain ⟨hk, hf, hl⟩ := hs
    rw [Machine.createdWords_staticfor hk hf hl, decode_staticfor (by simp) (by simp), wsField_descriptor]
    exact decodeStaticfor_refused (.inl (h.resolve_right (not_not_intro ⟨hk, hf, hl⟩)))
  · rw [Machine.createdWords_unspelled hs, decode_staticfor (by simp) (by simp)]
    exact decodeStaticfor_refused (.inr (by simp))

end Words

/-! ## The ports and the lines of a line term -/

/-- A source is spelled as its term says (R70). -/
theorem sourceTerm_eval_spells (x : SourceTerm) (i : Int) (d : Data) :
    (x = .signal → x.eval i d = .signal) ∧
    (∀ y n, x = .wire y → y.eval i d = .int n → 0 ≤ n → x.eval i d = .wire n.toNat) ∧
    (∀ y v, x = .const y → y.eval i d = .word v → x.eval i d = .const v) ∧
    (∀ y n, x = .const y → y.eval i d = .int n → x.eval i d = .const ⟨32, BitVec.ofInt 32 n⟩) := by
  refine ⟨?_, ?_, ?_, ?_⟩
  · rintro rfl
    rfl
  · rintro y n rfl hy -
    rw [SourceTerm.eval, hy]
    rfl
  · rintro y v rfl hy
    rw [SourceTerm.eval, hy]
    rfl
  · rintro y n rfl hy
    rw [SourceTerm.eval, hy]
    rfl

/-! ## The obligation -/

/-- Settles O60. The values and lines of terms are equations of `CbTerm`; the parts of a line term create ONES lines
only (`partsLines_ones`); and its descriptor is decided operation by operation (`decodeLine_created_ones` and the
like). -/
theorem createdLinesAreTheOnesNamed : Obligations.CreatedLinesAreTheOnesNamed := by
  refine ⟨?body, ?ones, ?choose, ?line⟩
  case body =>
    intro cbtab id cb h i d ls
    rw [Machine.callbackOf_listed h]
    rfl
  case ones =>
    intro w x i d n
    refine ⟨onesLine w n, rfl, rfl, rfl, rfl, rfl, rfl, fun hn => ⟨Machine.onesLine_decodes w hn.1 hn.2, ?_⟩,
      Machine.onesLine_refused w⟩
    refine ⟨Machine.mask w.bits n.toNat, ?_, Machine.mask_toNat (by omega)⟩
    rw [CbTerm.eval, Machine.onesValue_inside w hn.1 hn.2]
  case choose =>
    intro test x y i d chosen
    constructor
    · rw [CbTerm.eval, apply_ite (CbTerm.eval i d)]
    · rw [CbTerm.lines, apply_ite (CbTerm.lines i d)]
  case line =>
    intro lt i d
    dsimp only
    refine ⟨fun hg => ?guarded, fun hg => ⟨lt.parts i d, ?created, Machine.partsLines_ones lt i d⟩,
      sourceTerm_eval_spells lt.a i d, sourceTerm_eval_spells lt.b i d, sourceTerm_eval_spells lt.c i d,
      congrArg (Option.map _), fun y n ht hy h0 => ?target,
      fun hop => ⟨fun hk => ?ones, fun hk => ?oversized⟩, fun hop hk => ?getbit, fun hop hk => ?getbits,
      fun hop hk => ?isbitset, fun hop hws hk => ?sext16, fun hop hws hk => ?sext32, fun hop hk => ?rotr,
      fun hop hk => ?rotl, fun hop hws hk => ?incbcd,
      fun hop hws h0 h1 hf hl => ⟨fun hle => ?staticfor, fun hlt hf' hl' => ?reversed⟩, fun hop h => ?unspelled,
      fun hop => ⟨decodeLine_created_bitcast hop, decodeLine_created_bitcast_mismatch hop,
        decodeLine_created_bitcast_reserved hop⟩,
      decodeLine_created_nonzero, decodeLine_created_sext_width, decodeLine_created_incbcd_width,
      decodeLine_created_unassigned⟩
    case guarded => rw [LineTerm.lines, if_pos hg, List.append_nil]
    case created => rw [LineTerm.lines, if_neg hg, List.append_assoc]
    case target =>
      change lt.target.map _ = _
      rw [ht, Option.map_some, hy]
      rfl
    case ones => exact (decodeLine_created_ones hop).trans (if_pos hk)
    case oversized => exact (decodeLine_created_ones hop).trans (if_neg (by omega))
    case getbit => exact decodeLine_created_zero hop (by decide) hk fun _ ho hw h0 => hw ▸ .getbit ho h0
    case getbits => exact decodeLine_created_zero hop (by decide) hk fun _ ho hw h0 => hw ▸ .getbits ho h0
    case isbitset => exact decodeLine_created_zero hop (by decide) hk fun _ ho hw h0 => hw ▸ .isbitset ho h0
    case sext16 => exact decodeLine_created_zero hop (by decide) hk fun _ ho hw h0 => .sext16 ho (hw.trans hws) h0
    case sext32 => exact decodeLine_created_zero hop (by decide) hk fun _ ho hw h0 => .sext32 ho (hw.trans hws) h0
    case rotr => exact decodeLine_created_zero hop (by decide) hk fun _ ho hw h0 => hw ▸ .rotr ho h0
    case rotl => exact decodeLine_created_zero hop (by decide) hk fun _ ho hw h0 => hw ▸ .rotl ho h0
    case incbcd => exact decodeLine_created_zero hop (by decide) hk fun _ ho hw h0 => .incbcd ho (hw.trans hws) h0
    case staticfor =>
      have fits := decodeLine_created_staticfor hop hws h0 h1 (boundFits_iff.mpr ⟨hf, by omega⟩)
        (boundFits_iff.mpr ⟨by omega, hl⟩)
      exact fits.trans (if_pos hle)
    case reversed =>
      have fits := decodeLine_created_staticfor hop hws h0 h1 (boundFits_iff.mpr ⟨hf, hf'⟩)
        (boundFits_iff.mpr ⟨hl', hl⟩)
      exact fits.trans (if_neg (by omega))
    case unspelled =>
      refine decodeLine_created_staticfor_refused hop (h.imp_right fun hout => ?_)
      rw [immediateFits_iff, boundFits_iff, boundFits_iff]
      omega

end Sys2Proof
